-- ==== Sys2Proof/Word.lean ====
section
/-!
DEFINITION. The data CORE works on: bits, bit sequences, bit matrices and the two 16-bit words of its port.
-/

namespace Sys2Proof

/-- A bit, 0 or 1 (00_scope.md R11): `true` is 1. -/
abbrev Bit := Bool

/-- `Bits(w)` and `seq`: a finite sequence of bits, element 0 first (00_scope.md R11). -/
abbrev Bits := List Bit

/-- A bit matrix as its rows, row 0 first (00_scope.md R12). -/
abbrev Matrix := List Bits

/-- The syndrome table: entry `v` is the position it holds, or none (10_state.md R26). -/
abbrev SyndromeTable := List (Option Nat)

/-- The 16-bit command header and response status word, bit 15 the most significant (00_scope.md R14). -/
abbrev Word16 := BitVec 16

end Sys2Proof
end

