-- ==== Sys2Proof/Config.lean ====
section
/-!
DEFINITION. The two named parameters the model takes as an argument (00_scope.md R8, R9).
CORE leaves no result value open, so the model has no free value.
-/

namespace Sys2Proof

/-- The parameters of one CORE. They are fixed for the machine: `State` carries them and no step writes them (log 1). -/
structure Params where
  /-- RMAX, the largest parity order CORE accepts (00_scope.md R8). -/
  rmax : Nat
  /-- LMAX, the largest payload length in bits; `none` is "unbounded" (00_scope.md R9). -/
  lmax : Option Nat
  deriving DecidableEq, Repr

/-- The range R8 gives RMAX: `2 ≤ RMAX ≤ 4095`. -/
structure Params.WF (p : Params) : Prop where
  two_le_rmax : 2 ≤ p.rmax
  rmax_le : p.rmax ≤ 4095

/-- A payload of length `len` is longer than LMAX (60_exceptions.md R212); never so when LMAX is unbounded. -/
def Params.overLong (p : Params) (len : Nat) : Bool :=
  match p.lmax with
  | none => false
  | some bound => decide (bound < len)

/-- The parameters `State.reset` carries. DESIGN CHOICE (log 1): the spec fixes neither; these admit every NEW the
header can hold and every payload. -/
def Params.largest : Params := { rmax := 4095, lmax := none }

end Sys2Proof
end

