-- ==== Sys2Proof/Syntax.lean ====
section
/-!
DEFINITION. What crosses CORE's command port, the command set, and the assembler's forms.
-/

namespace Sys2Proof

/-- A command: a 16-bit header and a finite payload (30_encoding.md R60). -/
structure Command where
  hdr : Word16
  payload : Bits
  deriving DecidableEq, Repr

/-- CORE's command set, one constructor per row of spec/opcode_table.json (30_encoding.md R63, R64). -/
inductive Instr where
  /-- NEW: construct a configuration for parity order `r` (40_construction.md R90). -/
  | new (r : Nat)
  /-- ENC: encode the payload `x` (42_hamming_encoder.md R124). -/
  | enc (x : Bits)
  /-- DEC: decode the payload `x` (45_hamming_decoder.md R184). -/
  | dec (x : Bits)
  deriving DecidableEq, Repr

/-- Why the command decoder returns `Illegal` (30_encoding.md R65). CORE answers all three with IllegalCommandError. -/
inductive IllegalReason where
  /-- OP 0x0 or 0x4 to 0xF. -/
  | reservedOpcode (op : Nat)
  /-- NEW with a payload of `len` > 0 bits. -/
  | newWithPayload (len : Nat)
  /-- ENC or DEC with ARG ≠ 0. -/
  | nonzeroArg (op arg : Nat)
  deriving DecidableEq, Repr

/-- The forms of one line of a command program (30_encoding.md R70). -/
inductive AsmLine where
  /-- `NEW <r>` -/
  | new (r : Nat)
  /-- `ENC "<bits>"` -/
  | enc (bits : Bits)
  /-- `DEC "<bits>"` -/
  | dec (bits : Bits)
  /-- `.cmd 0x<hhhh> "<bits>"`: any raw header with any payload. -/
  | cmd (hdr : Word16) (bits : Bits)
  deriving DecidableEq, Repr

end Sys2Proof
end

