-- ==== Sys2Proof/Machine/State.lean ====
section
/-!
DEFINITION. CORE's state as plain data, the reasons a step can stop, and the state after reset.
-/

namespace Sys2Proof.Machine

/-! ## Responses -/

/-- The STATUS of a response (60_exceptions.md R200). -/
inductive Status where
  | ok
  | invalidParameterError
  | invalidLengthError
  | notConfiguredError
  | illegalCommandError
  deriving DecidableEq, Repr

/-- A response: a 16-bit status word and a finite payload (30_encoding.md R66). -/
structure Response where
  rsp : Word16
  payload : Bits
  deriving DecidableEq, Repr

/-! ## Configuration -/

/-- The configuration one successful NEW builds (00_scope.md R18, 10_state.md R22 to R26).
CFG.M and CFG.N are derived and not stored (10_state.md R23). H, G and T are stored data (R28, log 14). -/
structure Configuration where
  /-- CFG.R, the parity order: 12 bits, unsigned (10_state.md R22; `r : Nat` as in R34, log 3). -/
  r : Nat
  /-- The parity-check matrix, `CFG.R × CFG.N` bits (10_state.md R24). -/
  H : Matrix
  /-- The generator matrix, `CFG.M × CFG.N` bits (10_state.md R25). -/
  G : Matrix
  /-- The syndrome table, `2^CFG.R` entries, entry 0 reserved (10_state.md R26). -/
  T : SyndromeTable
  deriving DecidableEq, Repr

/-! ## The host side -/

/-- What the outside does to CORE. -/
inductive HostEvent where
  /-- The host sends a command (10_state.md R31). -/
  | command (c : Command)
  /-- A reset between two commands (70_reset_and_hazards.md R230). -/
  | reset
  /-- The host sends `c` and a reset arrives before its response (70_reset_and_hazards.md R231). -/
  | resetDuring (c : Command)
  deriving DecidableEq, Repr

/-! ## State -/

/-- The whole state. `cfg` is the spec's architectural state in the compact form of 10_state.md R34: `none` is
CFG.VALID = 0, where CFG.R, H, G and T are absent (R33). `nextCommand` is R21's index. `params`, `host` and `responses`
are the model's own fields: the parameters (log 1), what the host side does next, and what it has received. -/
structure State where
  /-- RMAX and LMAX; no step writes them (log 1). -/
  params : Params
  /-- CFG.VALID with CFG.R, H, G and T (10_state.md R22 to R26, R34). -/
  cfg : Option Configuration
  /-- The index of the next command in the host's sequence (10_state.md R21). -/
  nextCommand : Nat
  /-- What the host side does next, oldest first (log 4). -/
  host : List HostEvent
  /-- The responses since the last reset, in command order (70_reset_and_hazards.md R238; log 6). -/
  responses : List Response
  deriving DecidableEq, Repr

/-- CFG.VALID (10_state.md R22, R34). -/
def State.valid (s : State) : Bit := s.cfg.isSome

/-! ## The ways a step stops -/

/-- Why the machine stops with a fault. -/
inductive Fault where
  /-- Raised by DEC when the stored table has no position for a nonzero syndrome. The spec rules this out for every
  configuration NEW installs (43_syndrome_lookup_table.md R142), so only a state no run reaches raises it. Safe (log 8). -/
  | absentTableEntry
  deriving DecidableEq, Repr

/-- Why the model has no meaning for a step. -/
inductive Refusal where
  /-- An instruction without a meaning yet: none, in this model. Safe. -/
  | notModelled (mnemonic : String)
  /-- Raised by `step` for a payload longer than LMAX, which is outside the model (60_exceptions.md R212). Safe. -/
  | payloadTooLong (len : Nat)
  deriving DecidableEq, Repr

/-! ## Reset -/

/-- The state right after reset of a CORE with the given parameters (10_state.md R33): CFG.VALID is 0, CFG.R, H, G and
T are absent (log 2), nothing is pending and the next command is the host's first. -/
def State.resetWith (p : Params) : State :=
  { params := p, cfg := none, nextCommand := 0, host := [], responses := [] }

/-- The state right after reset, for the parameters of log 1. -/
def State.reset : State := State.resetWith Params.largest

end Sys2Proof.Machine
end

