-- ==== Sys2Proof/Machine/Operands.lean ====
section
/-!
DEFINITION. Bit sequences, blocks, numbers and matrices in the notation of 00_scope.md, and the derived code parameters.
-/

namespace Sys2Proof.Machine

/-! ## Code parameters (00_scope.md R7, 10_state.md R23) -/

/-- `n = 2^r - 1`. -/
def codeN (r : Nat) : Nat := 2 ^ r - 1

/-- `m = n - r`. -/
def codeM (r : Nat) : Nat := codeN r - r

/-- CFG.N, derived from CFG.R. -/
def Configuration.N (c : Configuration) : Nat := codeN c.r

/-- CFG.M, derived from CFG.R. -/
def Configuration.M (c : Configuration) : Nat := codeM c.r

/-! ## Bit sequences (00_scope.md R11) -/

/-- The half-open slice `x[a, b)`. -/
def slice (x : Bits) (a b : Nat) : Bits := (x.drop a).take (b - a)

/-- `flip(x, p)`: `x` with element `p` replaced by `1 - x[p]`. -/
def flipBit (x : Bits) (p : Nat) : Bits := x.set p (!x.getD p false)

/-- The blocks of width `w` of a payload: block `b` is `x[b·w, (b+1)·w)` for `b` in `[0, L / w)` (20_memory.md R46). -/
def blocks (w : Nat) (x : Bits) : List Bits :=
  (List.range (x.length / w)).map fun b => slice x (b * w) ((b + 1) * w)

/-! ## Numbers (00_scope.md R13) -/

/-- `int_be(v)`: element 0 is the most significant. -/
def intBe (v : Bits) : Nat := v.foldl (fun acc b => 2 * acc + b.toNat) 0

/-- `be_w(x)`: element `k` is `(x >> (w - 1 - k)) and 1`. -/
def be (w x : Nat) : Bits := (List.range w).map fun k => x.testBit (w - 1 - k)

/-! ## GF(2) (41_gf2_matrix_mult.md R100) -/

/-- `XOR_{i in S} e_i`: 0 for an empty set (00_scope.md R16). -/
def xorSum (bs : Bits) : Bit := bs.foldr xor false

/-- The sum of the products of the elements of `u` and `v` (XOR of AND'd bit pairs). -/
def dot (u v : Bits) : Bit := xorSum (List.zipWith and u v)

/-- The element-wise sum of two vectors. -/
def xorBits (u v : Bits) : Bits := List.zipWith xor u v

/-- The unit vector `e_i` of `w` bits. -/
def unitVec (w i : Nat) : Bits := (List.range w).map fun j => decide (j = i)

/-! ## Matrices (00_scope.md R12) -/

/-- `M[k][j]`. Both indices lie inside every matrix a rule reads (log 8). -/
def entry (M : Matrix) (k j : Nat) : Bit := (M.getD k []).getD j false

/-- `col(M, j)`: column `j`, read from row 0 down. -/
def col (M : Matrix) (j : Nat) : Bits := M.map fun row => row.getD j false

/-- `M[:, a0:a1]`: the sub-matrix of columns `a0` to `a1 - 1`. -/
def columns (M : Matrix) (a0 a1 : Nat) : Matrix := M.map fun row => slice row a0 a1

/-- `transpose(M)` of a matrix of `b` columns: row `j` is column `j` of `M`. -/
def transpose (b : Nat) (M : Matrix) : Matrix := (List.range b).map (col M)

/-- `I_w`. -/
def identity (w : Nat) : Matrix := (List.range w).map (unitVec w)

/-- `concat(A, B)`: the columns of `B` after the columns of `A`. -/
def concatCols (A B : Matrix) : Matrix := List.zipWith (· ++ ·) A B

/-- The matrix has `a` rows of `b` bits each. -/
def hasShape (a b : Nat) (M : Matrix) : Prop := M.length = a ∧ ∀ row ∈ M, row.length = b

end Sys2Proof.Machine
end

