-- ==== Sys2Proof/WellFormed.lean ====
section
/-!
DEFINITION. Which instructions and assembler lines the encoding can express.
-/

namespace Sys2Proof

/-- NEW's `r` must fit the 12-bit ARG field (30_encoding.md R61); a payload may have any length (R62). -/
def Instr.wellFormed (i : Instr) : Bool :=
  match i with
  | .new r => decide (r < 2 ^ 12)
  | .enc _ => true
  | .dec _ => true

/-- The instruction can be encoded. -/
abbrev Instr.WellFormed (i : Instr) : Prop := i.wellFormed = true

/-- `NEW <r>` takes a decimal `r` in 0..4095 (30_encoding.md R70). -/
def AsmLine.wellFormed (l : AsmLine) : Bool :=
  match l with
  | .new r => decide (r ≤ 4095)
  | .enc _ => true
  | .dec _ => true
  | .cmd _ _ => true

/-- The line can be assembled. -/
abbrev AsmLine.WellFormed (l : AsmLine) : Prop := l.wellFormed = true

end Sys2Proof
end

