-- ==== Sys2Proof/Decode.lean ====
section
/-!
DEFINITION. The command decoder and encoder, and the opcode table.
-/

namespace Sys2Proof

/-! ## Header fields (30_encoding.md R61) -/

/-- OP = `hdr[15:12]`. -/
def opField (hdr : Word16) : Nat := (hdr.extractLsb 15 12).toNat

/-- ARG = `hdr[11:0]`, unsigned (`zext_12`, 30_encoding.md R68). -/
def argField (hdr : Word16) : Nat := (hdr.extractLsb 11 0).toNat

/-- The header with the given OP and ARG (30_encoding.md R61). -/
def header (op arg : Nat) : Word16 := BitVec.ofNat 4 op ++ BitVec.ofNat 12 arg

/-! ## Decoder and encoder -/

/-- The command decoder, total on every header and payload; it reads no state (30_encoding.md R64). -/
def decode (c : Command) : Except IllegalReason Instr :=
  let op := opField c.hdr
  let arg := argField c.hdr
  if op = 0x1 then
    if c.payload.length ≠ 0 then .error (.newWithPayload c.payload.length) else .ok (.new arg)
  else if op = 0x2 then
    if arg ≠ 0 then .error (.nonzeroArg op arg) else .ok (.enc c.payload)
  else if op = 0x3 then
    if arg ≠ 0 then .error (.nonzeroArg op arg) else .ok (.dec c.payload)
  else .error (.reservedOpcode op)

/-- The command of a well-formed instruction (30_encoding.md R61, R63; the header column of R70). -/
def encode (i : Instr) : Command :=
  match i with
  | .new r => { hdr := header 0x1 r, payload := [] }
  | .enc x => { hdr := header 0x2 0, payload := x }
  | .dec x => { hdr := header 0x3 0, payload := x }

/-! ## The opcode table -/

/-- A row of spec/opcode_table.json: a header `h` belongs to it if `h and mask = pattern`. -/
structure OpcodeRow where
  mnemonic : String
  pattern : Word16
  mask : Word16
  deriving DecidableEq, Repr

/-- spec/opcode_table.json. -/
def opcodeTable : List OpcodeRow :=
  [ { mnemonic := "NEW", pattern := 0x1000#16, mask := 0xF000#16 },
    { mnemonic := "ENC", pattern := 0x2000#16, mask := 0xFFFF#16 },
    { mnemonic := "DEC", pattern := 0x3000#16, mask := 0xFFFF#16 } ]

/-- The header belongs to the row. -/
def OpcodeRow.covers (row : OpcodeRow) (hdr : Word16) : Bool := hdr &&& row.mask == row.pattern

/-- The row's mnemonic of an instruction (30_encoding.md R63). -/
def Instr.mnemonic (i : Instr) : String :=
  match i with
  | .new _ => "NEW"
  | .enc _ => "ENC"
  | .dec _ => "DEC"

/-- The command whose bits are `w` as spec/opcode_table.json numbers them: the header is bits 15..0, and of the `nbits`
bits those from bit 16 on are the payload, element 0 first (log 10). A table row has 16 bits, so its payload is empty. -/
def tableCommand (nbits w : Nat) : Command :=
  { hdr := BitVec.ofNat 16 w, payload := (List.range (nbits - 16)).map fun k => w.testBit (16 + k) }

/-- The instruction the decoder reads from a table word; none where the decoder answers `Illegal`. -/
def decodeTableWord (nbits w : Nat) : Option Instr :=
  match decode (tableCommand nbits w) with
  | .ok i => some i
  | .error _ => none

end Sys2Proof
end

