-- ==== Sys2Proof/Machine/Flags.lean ====
section
/-!
DEFINITION. CORE has no flags (10_state.md R29): a command's outcome is its response's status word, computed here.
-/

namespace Sys2Proof.Machine

/-- The numeric status codes (60_exceptions.md R200). -/
def Status.code (st : Status) : Nat :=
  match st with
  | .ok => 0
  | .invalidParameterError => 1
  | .invalidLengthError => 2
  | .notConfiguredError => 3
  | .illegalCommandError => 4

/-- The status word: STATUS in bits 15:12 and bits 11:0 zero, that is `status << 12` (30_encoding.md R66, R67). -/
def Status.word (st : Status) : Word16 := BitVec.ofNat 16 st.code <<< 12

/-- The STATUS field of a response, `rsp[15:12]` (30_encoding.md R66). -/
def Response.statusField (r : Response) : Nat := (r.rsp.extractLsb 15 12).toNat

/-- The status a response carries; none for the codes 5 to 15, which are never produced (60_exceptions.md R206). -/
def Response.status (r : Response) : Option Status :=
  match r.statusField with
  | 0 => some .ok
  | 1 => some .invalidParameterError
  | 2 => some .invalidLengthError
  | 3 => some .notConfiguredError
  | 4 => some .illegalCommandError
  | _ => none

/-- A response of status `st` with the given payload, `(status << 12, payload)` (30_encoding.md R67). -/
def response (st : Status) (payload : Bits) : Response := { rsp := st.word, payload := payload }

end Sys2Proof.Machine
end

