-- ==== Sys2Proof/Machine/Ops.lean ====
section
/-!
DEFINITION. The shared operations over the state: ending a command with a response, raising an error, installing a
configuration, taking a reset, and accepting the host's next event.
There is no return from an error: after any response CORE is ready for the next command (60_exceptions.md R209).
-/

namespace Sys2Proof.Machine

/-- The outcome of one step of this machine. -/
abbrev Outcome := Host.Outcome State Fault Refusal

/-! ## Updates of the state -/

/-- Emit one response and advance the next-command index by one (30_encoding.md R67, 10_state.md R21). -/
def State.emit (s : State) (rsp : Response) : State :=
  { s with responses := s.responses ++ [rsp], nextCommand := s.nextCommand + 1 }

/-- Write CFG.R, H, G and T and set CFG.VALID, as one atomic update (40_construction.md R90). -/
def State.install (s : State) (c : Configuration) : State := { s with cfg := some c }

/-- The host side goes on with the given events. -/
def State.withHost (s : State) (events : List HostEvent) : State := { s with host := events }

/-- The host side does these events after those it has still to do. -/
def State.send (s : State) (events : List HostEvent) : State := s.withHost (s.host ++ events)

/-! ## Ending a command -/

/-- `respond(status, payload)`: end the current command with the response given (30_encoding.md R67). -/
def respond (st : Status) (payload : Bits) (s : State) : Outcome := .next (s.emit (response st payload))

/-- `raise E`: end the current command with error `E`. The response is `(E, [])` and CFG, H, G and T are as they were
before the command (60_exceptions.md R207). -/
def raise (e : Status) (s : State) : Outcome := respond e [] s

/-! ## Reset -/

/-- A reset puts every field into the state of 10_state.md R33 (70_reset_and_hazards.md R230). The parameters are the
machine's, and `events` is what the host side does afterwards (log 7). -/
def takeReset (s : State) (events : List HostEvent) : State := (State.resetWith s.params).withHost events

/-! ## Accepting the host's next event -/

/-- What the step finds at its port. -/
inductive Fetch where
  /-- No event: the core waits (20_memory.md R41). -/
  | waiting
  /-- A reset was taken; `s` is the state after it. -/
  | afterReset (s : State)
  /-- A payload longer than LMAX (60_exceptions.md R212). -/
  | tooLong (len : Nat)
  /-- A command the decoder returns `Illegal` for, accepted in state `s` (30_encoding.md R65). -/
  | illegal (why : IllegalReason) (s : State)
  /-- A command that decodes to `i`, accepted in state `s`. -/
  | perform (i : Instr) (s : State)
  deriving DecidableEq, Repr

/-- Accept a command: the payload length check, then the decoder, which reads no state (60_exceptions.md R210; log 15). -/
def accept (c : Command) (s : State) : Fetch :=
  if s.params.overLong c.payload.length then .tooLong c.payload.length
  else
    match decode c with
    | .error why => .illegal why s
    | .ok i => .perform i s

/-- Take the oldest event of the host side. A command cut off by a reset emits no response and writes nothing
(70_reset_and_hazards.md R231); one whose payload is longer than LMAX is outside the model all the same (R212). -/
def fetch (s : State) : Fetch :=
  match s.host with
  | [] => .waiting
  | .reset :: rest => .afterReset (takeReset s rest)
  | .resetDuring c :: rest =>
    if s.params.overLong c.payload.length then .tooLong c.payload.length else .afterReset (takeReset s rest)
  | .command c :: rest => accept c (s.withHost rest)

end Sys2Proof.Machine
end

