-- ==== Sys2Proof/Machine/Construction.lean ====
section
/-!
DEFINITION. The construction unit and the NEW command (40_construction.md).
-/

namespace Sys2Proof.Machine

/-! ## Column values -/

/-- The column values of the non-systematic H0: column `j` holds `j + 1` (R82). -/
def initialColvals (r : Nat) : List Nat := (List.range (codeN r)).map (· + 1)

/-- Exchange elements `a` and `b`, both inside the list (R83). -/
def swapEntries (cv : List Nat) (a b : Nat) : List Nat := (cv.set a (cv.getD b 0)).set b (cv.getD a 0)

/-- Swap `i` of R83: columns `2^i - 1` and `n - 1 - i`. -/
def swapStep (r : Nat) (cv : List Nat) (i : Nat) : List Nat := swapEntries cv (2 ^ i - 1) (codeN r - 1 - i)

/-- The column values after the swaps named in `order`, taken in that order. -/
def colvalsAfter (r : Nat) (order : List Nat) : List Nat := order.foldl (swapStep r) (initialColvals r)

/-- `cv` as left by R83's swaps for `i = 0..r-1` in increasing order. -/
def colvals (r : Nat) : List Nat := colvalsAfter r (List.range r)

/-! ## The matrices and the table -/

/-- The `r × n` matrix whose column `j` is `be_r(cv[j])`: row `k` holds bit `r - 1 - k` of each value (R82, R84). -/
def matrixOfColvals (r : Nat) (cv : List Nat) : Matrix :=
  (List.range r).map fun k => cv.map fun v => v.testBit (r - 1 - k)

/-- The non-systematic parity-check matrix H0 (R82). -/
def h0 (r : Nat) : Matrix := matrixOfColvals r (initialColvals r)

/-- `Hsys(r)` (R84). -/
def hsys (r : Nat) : Matrix := matrixOfColvals r (colvals r)

/-- `concat(I_m, transpose(H[:, 0:m]))` (R85). -/
def genOf (r : Nat) (H : Matrix) : Matrix :=
  concatCols (identity (codeM r)) (transpose (codeM r) (columns H 0 (codeM r)))

/-- `Gen(r)` (R85). -/
def gen (r : Nat) : Matrix := genOf r (hsys r)

/-- `colval(j) = int_be(col(H, j))` (R84). -/
def colval (H : Matrix) (j : Nat) : Nat := intBe (col H j)

/-- The table of `2^r` entries that reads each column of H as a big-endian integer and maps it to the column's
position; entry 0 stays reserved (R86). -/
def tabOf (r : Nat) (H : Matrix) : SyndromeTable :=
  (List.range (codeN r)).foldl (fun T j => T.set (colval H j) (some j)) (List.replicate (2 ^ r) none)

/-- `Tab(r)` (R86). -/
def tab (r : Nat) : SyndromeTable := tabOf r (hsys r)

/-- The configuration for parity order `r`: a pure function of `r` alone (R80, R81). -/
def construct (r : Nat) : Configuration := { r := r, H := hsys r, G := gen r, T := tab r }

/-! ## The command -/

/-- NEW (R90): InvalidParameterError for `r < 2` or `r > RMAX`, writing no state (R91); otherwise the configuration for
`r` replaces the one in force, if any, as one atomic update (R92). -/
def execNew (r : Nat) (s : State) : Outcome :=
  if r < 2 then raise .invalidParameterError s
  else if s.params.rmax < r then raise .invalidParameterError s
  else respond .ok [] (s.install (construct r))

end Sys2Proof.Machine
end

