-- ==== Sys2Proof/Machine/SyndromeTable.lean ====
section
/-!
DEFINITION. The syndrome_lookup_table unit (43_syndrome_lookup_table.md).
-/

namespace Sys2Proof.Machine

/-- The unit's outputs `hit` and `pos` (R141). -/
structure LookupResult where
  hit : Bit
  pos : Nat
  deriving DecidableEq, Repr

/-- LOOKUP (R141). Syndrome 0 answers `hit = 0` with `pos = 0`, which means nothing (D22, log 9). For another syndrome
the answer is the position its entry holds; `none` says that the entry holds none, which no table NEW installs shows
(R142, log 8). -/
def lookup (T : SyndromeTable) (s : Bits) : Option LookupResult :=
  if intBe s = 0 then some { hit := false, pos := 0 }
  else (T.getD (intBe s) none).map fun p => { hit := true, pos := p }

end Sys2Proof.Machine
end

