-- ==== Sys2Proof/Machine/Corrector.lean ====
section
/-!
DEFINITION. The bit_error_corrector unit (44_bit_error_corrector.md).
-/

namespace Sys2Proof.Machine

/-- CORRECT (R161): the block unchanged for syndrome 0, otherwise with the bit the table names flipped. The unit trusts
`s`; it does not look at the block again. -/
def correct (T : SyndromeTable) (c s : Bits) : Option Bits :=
  if intBe s = 0 then some c
  else (lookup T s).map fun found => flipBit c found.pos

end Sys2Proof.Machine
end

