-- ==== Sys2Proof/Machine/Gf2.lean ====
section
/-!
DEFINITION. The gf2_matrix_mult unit (41_gf2_matrix_mult.md): products of a bit vector and a bit matrix over GF(2).
-/

namespace Sys2Proof.Machine

/-- VM: `w[j] = XOR_i (v[i] and M[i][j])` for `j` in `[0, b)`, `b` the number of columns of `M` (R101). -/
def vm (b : Nat) (v : Bits) (M : Matrix) : Bits := (List.range b).map fun j => dot v (col M j)

/-- MV: `s[k] = XOR_j (M[k][j] and v[j])` (R102). -/
def mv (M : Matrix) (v : Bits) : Bits := M.map fun row => dot row v

/-- The unit's `mode` input (R103): VM is 0, MV is 1. -/
inductive MultMode where
  | vm
  | mv
  deriving DecidableEq, Repr

/-- The unit's `mode` bit (R103). -/
def MultMode.bit (mode : MultMode) : Bit :=
  match mode with
  | .vm => false
  | .mv => true

/-- The unit with its ports `mode`, `mat`, `vec` and `res`; `b` is the number of columns of `mat`. It is combinational
and holds no state (R103). -/
def gf2MatrixMult (mode : MultMode) (b : Nat) (mat : Matrix) (vec : Bits) : Bits :=
  match mode with
  | .vm => vm b vec mat
  | .mv => mv mat vec

/-- The packed form of VM: the element-wise XOR of the rows `M[i]` for which `v[i] = 1` (R104). -/
def vmPacked (b : Nat) (v : Bits) (M : Matrix) : Bits :=
  (List.zip v M).foldl (fun acc p => if p.1 then xorBits acc p.2 else acc) (List.replicate b false)

/-- The packed form of MV: element `k` is the parity of `M[k] and v` taken element-wise (R104). -/
def mvPacked (M : Matrix) (v : Bits) : Bits :=
  M.map fun row => decide ((List.zipWith and row v).count true % 2 = 1)

end Sys2Proof.Machine
end

