-- ==== Sys2Proof/Machine/Decoder.lean ====
section
/-!
DEFINITION. The hamming_decoder unit and the DEC command (45_hamming_decoder.md).
-/

namespace Sys2Proof.Machine

/-- SYNDROME of a block (R182). -/
def syndrome (c : Configuration) (block : Bits) : Bits := gf2MatrixMult .mv c.N c.H block

/-- decode_block, the unit with its ports `c` and `d` (R180, R183): the first `m` bits of the corrected block.
`none` only where LOOKUP finds no position (log 8). -/
def decodeBlock (c : Configuration) (block : Bits) : Option Bits :=
  (correct c.T block (syndrome c block)).map fun fixed => slice fixed 0 c.M

/-- The decoded blocks, concatenated in order (R181). -/
def decodeBlocks (c : Configuration) (bs : List Bits) : Option Bits :=
  match bs with
  | [] => some []
  | block :: rest =>
    match decodeBlock c block, decodeBlocks c rest with
    | some d, some out => some (d ++ out)
    | _, _ => none

/-- decode: consecutive blocks of `n` bits, each decoded on its own (R181). -/
def decodeSeq (c : Configuration) (x : Bits) : Option Bits := decodeBlocks c (blocks c.N x)

/-- DEC (R184): NotConfiguredError with no configuration, InvalidLengthError for a length that is no multiple of `n`
(R185), otherwise OK with the decoded payload, however many errors its blocks hold (R186). No state is written. -/
def execDec (x : Bits) (s : State) : Outcome :=
  match s.cfg with
  | none => raise .notConfiguredError s
  | some c =>
    if x.length % c.N ≠ 0 then raise .invalidLengthError s
    else
      match decodeSeq c x with
      | some out => respond .ok out s
      | none => .fault .absentTableEntry

end Sys2Proof.Machine
end

