-- ==== Sys2Proof/Machine/Encoder.lean ====
section
/-!
DEFINITION. The hamming_encoder unit and the ENC command (42_hamming_encoder.md).
-/

namespace Sys2Proof.Machine

/-- encode_block, the unit with its ports `d` and `c`, reading the storage G (R120, R121). -/
def encodeBlock (c : Configuration) (d : Bits) : Bits := gf2MatrixMult .vm c.N c.G d

/-- The systematic form of a codeword: the data, then the `r` parity bits from H's first `m` columns (R122). -/
def encodeBlockSystematic (c : Configuration) (d : Bits) : Bits :=
  d ++ (List.range c.r).map fun k => xorSum ((List.range c.M).map fun i => d.getD i false && entry c.H k i)

/-- encode: the codewords of consecutive blocks of `m` bits, in block order (R123). -/
def encodeSeq (c : Configuration) (x : Bits) : Bits := (blocks c.M x).flatMap (encodeBlock c)

/-- ENC (R124): NotConfiguredError with no configuration, InvalidLengthError for a length that is no multiple of `m`
(R125), otherwise OK with the encoded payload. No state is written. -/
def execEnc (x : Bits) (s : State) : Outcome :=
  match s.cfg with
  | none => raise .notConfiguredError s
  | some c =>
    if x.length % c.M ≠ 0 then raise .invalidLengthError s
    else respond .ok (encodeSeq c x) s

end Sys2Proof.Machine
end

