-- ==== Sys2Proof/Machine/Dispatch.lean ====
section
/-!
DEFINITION. Which meaning each command has.
-/

namespace Sys2Proof.Machine

def exec (i : Instr) (s : State) : Host.Outcome State Fault Refusal :=
  match i with
  | .new r => Sys2Proof.Machine.execNew r s
  | .enc x => Sys2Proof.Machine.execEnc x s
  | .dec x => Sys2Proof.Machine.execDec x s

end Sys2Proof.Machine
end

