-- ==== Sys2Proof/Machine/Step.lean ====
section
/-!
DEFINITION. One step of CORE: one command, performed in the order of 60_exceptions.md R210.
-/

namespace Sys2Proof.Machine

/-- The command step (60_exceptions.md R210). With no event at the port the core waits, its state unchanged (log 5);
a reset is a step of its own (log 7). -/
def step (s : State) : Host.Outcome State Fault Refusal :=
  match fetch s with
  | .waiting => .next s
  | .afterReset s' => .next s'
  | .tooLong len => .refused (.payloadTooLong len)
  | .illegal _ s' => raise .illegalCommandError s'
  | .perform i s' => exec i s'

/-- The state whose next step performs the command with the given table word: the host sends it before whatever it has
still to do (log 4). -/
def State.withFetchWord (s : State) (nbits w : Nat) : State :=
  s.withHost (.command (tableCommand nbits w) :: s.host)

end Sys2Proof.Machine
end

