-- ==== Sys2Proof/Machine/Asm.lean ====
section
/-!
DEFINITION. The assembler: one command per line, and how responses are written (30_encoding.md R70, R71).
A text is a list of characters. Text outside R70's forms is rejected (log 11).
-/

namespace Sys2Proof.Machine

/-! ## From a line to a command -/

/-- The command a line assembles to (the header column of R70). -/
def assemble (l : AsmLine) : Command :=
  match l with
  | .new r => { hdr := 0x1000#16 ||| BitVec.ofNat 16 r, payload := [] }
  | .enc bits => { hdr := 0x2000#16, payload := bits }
  | .dec bits => { hdr := 0x3000#16, payload := bits }
  | .cmd hdr bits => { hdr := hdr, payload := bits }

/-! ## From text to a line -/

/-- What a line of text is. -/
inductive ParsedLine where
  /-- Nothing but spaces and a comment. -/
  | blank
  | line (l : AsmLine)
  /-- Not one of R70's forms. -/
  | malformed
  deriving DecidableEq, Repr

/-- A comment starts at `;` and runs to the end of the line. -/
def stripComment (cs : List Char) : List Char := cs.takeWhile (· != ';')

/-- A space or a tab. -/
def isBlank (ch : Char) : Bool := ch == ' ' || ch == '\t'

/-- The text without the spaces at both ends. -/
def trimBlanks (cs : List Char) : List Char := ((cs.dropWhile isBlank).reverse.dropWhile isBlank).reverse

/-- The bits of a bit string; spaces inside it are ignored. -/
def parseBits (cs : List Char) : Option Bits :=
  match cs with
  | [] => some []
  | ch :: rest =>
    if ch = '0' then (parseBits rest).map (false :: ·)
    else if ch = '1' then (parseBits rest).map (true :: ·)
    else if ch = ' ' then parseBits rest
    else none

/-- A bit string between double quotes. -/
def parseQuoted (cs : List Char) : Option Bits :=
  match cs with
  | [] => none
  | ch :: rest =>
    if ch = '"' ∧ rest.getLast? = some '"' then parseBits rest.dropLast else none

/-- The number of the digits `cs` in base `base`, after the digits read so far. -/
def parseDigits (base : Nat) (digit : Char → Option Nat) (soFar : Nat) (cs : List Char) : Option Nat :=
  match cs with
  | [] => some soFar
  | ch :: rest =>
    match digit ch with
    | none => none
    | some d => parseDigits base digit (base * soFar + d) rest

/-- The value of a decimal digit. -/
def decDigit (ch : Char) : Option Nat :=
  if '0' ≤ ch ∧ ch ≤ '9' then some (ch.toNat - '0'.toNat) else none

/-- The value of a hexadecimal digit. -/
def hexDigit (ch : Char) : Option Nat :=
  if '0' ≤ ch ∧ ch ≤ '9' then some (ch.toNat - '0'.toNat)
  else if 'A' ≤ ch ∧ ch ≤ 'F' then some (ch.toNat - 'A'.toNat + 10)
  else if 'a' ≤ ch ∧ ch ≤ 'f' then some (ch.toNat - 'a'.toNat + 10)
  else none

/-- A decimal number of at least one digit. -/
def parseDecimal (cs : List Char) : Option Nat :=
  if cs = [] then none else parseDigits 10 decDigit 0 cs

/-- A header word written `0x<hhhh>`. -/
def parseHeader (cs : List Char) : Option Word16 :=
  match cs with
  | '0' :: 'x' :: digits =>
    if digits.length = 4 then (parseDigits 16 hexDigit 0 digits).map (BitVec.ofNat 16) else none
  | _ => none

/-- A line, or `malformed`. -/
def lineOr (l : Option AsmLine) : ParsedLine :=
  match l with
  | some l => if l.wellFormed then .line l else .malformed
  | none => .malformed

/-- The word up to the first space, and the trimmed rest. -/
def splitWord (cs : List Char) : List Char × List Char :=
  (cs.takeWhile (fun ch => !isBlank ch), trimBlanks (cs.dropWhile (fun ch => !isBlank ch)))

/-- One line of a command program (R70). -/
def parseLine (cs : List Char) : ParsedLine :=
  let text := trimBlanks (stripComment cs)
  let parts := splitWord text
  if text = [] then .blank
  else if parts.1 = ['N', 'E', 'W'] then lineOr ((parseDecimal parts.2).map .new)
  else if parts.1 = ['E', 'N', 'C'] then lineOr ((parseQuoted parts.2).map .enc)
  else if parts.1 = ['D', 'E', 'C'] then lineOr ((parseQuoted parts.2).map .dec)
  else if parts.1 = ['.', 'c', 'm', 'd'] then
    let args := splitWord parts.2
    match parseHeader args.1, parseQuoted args.2 with
    | some hdr, some bits => .line (.cmd hdr bits)
    | _, _ => .malformed
  else .malformed

/-- The commands of a program given line by line; none if a line is malformed. -/
def assembleProgram (lines : List (List Char)) : Option (List Command) :=
  match lines with
  | [] => some []
  | cs :: rest =>
    match parseLine cs, assembleProgram rest with
    | .blank, some out => some out
    | .line l, some out => some (assemble l :: out)
    | _, _ => none

/-! ## Responses as text -/

/-- A bit as a character. -/
def bitChar (b : Bit) : Char := if b then '1' else '0'

/-- The name of a status (60_exceptions.md R200). -/
def Status.name (st : Status) : String :=
  match st with
  | .ok => "OK"
  | .invalidParameterError => "InvalidParameterError"
  | .invalidLengthError => "InvalidLengthError"
  | .notConfiguredError => "NotConfiguredError"
  | .illegalCommandError => "IllegalCommandError"

/-- A response as R70 writes it: `OK "<bits>"`, `OK` for an empty payload (log 11), or the error's name; none for a
status code that is never produced. -/
def Response.text (r : Response) : Option (List Char) :=
  r.status.map fun st =>
    if r.payload = [] then st.name.toList
    else st.name.toList ++ [' ', '"'] ++ r.payload.map bitChar ++ ['"']

end Sys2Proof.Machine
end

