-- ==== Sys2Proof/Machine/Frame.lean ====
section
/-!
DEFINITION. The frame a transport carries: a 16-bit word, bit 15 first, then the payload (20_memory.md R45,
30_encoding.md R69). CORE itself takes a word and a payload; no step reads a frame.
-/

namespace Sys2Proof.Machine

/-- A 16-bit word serialised bit 15 first (20_memory.md R45). -/
def wordBits (w : Word16) : Bits := be 16 w.toNat

/-- The word whose serialisation, bit 15 first, is the given 16 bits. -/
def wordOfBits (bits : Bits) : Word16 := BitVec.ofNat 16 (intBe bits)

/-- The frame of a command, `16 + L` bits (30_encoding.md R69). -/
def commandFrame (c : Command) : Bits := wordBits c.hdr ++ c.payload

/-- The command a frame holds; the frame's length gives `L` (30_encoding.md R62, R69).
A frame of fewer than 16 bits holds no command (log 10). -/
def commandOfFrame (frame : Bits) : Option Command :=
  if frame.length < 16 then none
  else some { hdr := wordOfBits (frame.take 16), payload := frame.drop 16 }

/-- The frame of a response: its status word, bit 15 first, then its payload (30_encoding.md R66, 20_memory.md R45). -/
def responseFrame (r : Response) : Bits := wordBits r.rsp ++ r.payload

end Sys2Proof.Machine
end

