-- ==== Sys2Proof/Machine/Run.lean ====
section
/-!
DEFINITION. A run of host commands after one reset, and its observation (70_reset_and_hazards.md R238).
-/

namespace Sys2Proof.Machine

/-- How a run ended. A Refused command is a mark kept for the whole run (60_exceptions.md R212). -/
inductive RunEnd where
  | completed
  | faulted (why : Fault)
  | refused (why : Refusal)
  deriving DecidableEq, Repr

/-- What is observed of a run: the responses in command order, the final state, and how it ended (R238). -/
structure Observation where
  responses : List Response
  final : State
  ending : RunEnd
  deriving DecidableEq, Repr

/-- At most `k` steps, ending at the first fault or refusal. -/
def runFor (k : Nat) (s : State) : Observation :=
  match k with
  | 0 => { responses := s.responses, final := s, ending := .completed }
  | k + 1 =>
    match step s with
    | .next s' => runFor k s'
    | .fault why => { responses := s.responses, final := s, ending := .faulted why }
    | .refused why => { responses := s.responses, final := s, ending := .refused why }

/-- The run of the given commands, sent after a reset of a CORE with parameters `p` (R238). -/
def runCommands (p : Params) (commands : List Command) : Observation :=
  runFor commands.length ((State.resetWith p).send (commands.map .command))

end Sys2Proof.Machine
end

