-- ==== Sys2Proof/Safety.lean ====
section
/-!
DEFINITION. What claims are stated in: the invariant of CORE's state, legal responses, and a safe run.
-/

namespace Sys2Proof.Machine

/-- The configuration is the one the construction builds for a parity order the parameters allow: `2 ≤ CFG.R ≤ RMAX`
and H, G and T equal `Hsys`, `Gen` and `Tab` of CFG.R (10_state.md R32). -/
structure Configuration.Legal (c : Configuration) (p : Params) : Prop where
  two_le : 2 ≤ c.r
  le_rmax : c.r ≤ p.rmax
  hsys_eq : c.H = hsys c.r
  gen_eq : c.G = gen c.r
  tab_eq : c.T = tab c.r

/-- A response CORE may give: one of the five status words, with an empty payload unless it is OK
(30_encoding.md R66, 60_exceptions.md R206, R211). -/
structure Response.Legal (r : Response) : Prop where
  has_status : ∃ st : Status, r.rsp = st.word
  error_empty : r.rsp ≠ Status.ok.word → r.payload = []

/-- The invariant: R32 for the configuration in force, and one legal response for every command performed since the
last reset (10_state.md R21, R31, R32; 60_exceptions.md R211). -/
structure State.Inv (s : State) : Prop where
  cfg_legal : ∀ c, s.cfg = some c → c.Legal s.params
  one_response_each : s.responses.length = s.nextCommand
  responses_legal : ∀ r ∈ s.responses, r.Legal

/-- A safe run completes: no command faulted and none was Refused. A run with a Refused command is outside the model and
is not safe (60_exceptions.md R212). -/
def Observation.Safe (o : Observation) : Prop := o.ending = .completed

/-- A claim about a run, stated over its observation (70_reset_and_hazards.md R238), holds of the run only if the run is
safe: no claim holds of a run that sends a command that is Refused (60_exceptions.md R212). -/
def Observation.Holds (o : Observation) (claim : Observation → Prop) : Prop := o.Safe ∧ claim o

/-- The command cannot change the configuration of a CORE whose largest parity order is `rmax`: it is illegal, an ENC, a
DEC, or a NEW that fails (10_state.md R27, 40_construction.md R91). -/
def keepsConfiguration (c : Command) (rmax : Nat) : Prop :=
  ∀ r, decode c = .ok (.new r) → r < 2 ∨ rmax < r

end Sys2Proof.Machine
end

