-- ==== Sys2Proof/Certificates/Slice0/Obligations.lean ====
section
/-!
DEFINITION. The statements for the provers. Each docstring names the rule of spec/ it formalises.
-/

open Sys2Proof Sys2Proof.Machine

/-! ## Reset, the port and the command step -/

/-- 10_state.md R33: after reset CFG.VALID is 0, CFG.R, H, G and T are absent, nothing is pending and no output is held,
and the next command is the host's first. Stated for every value of the parameters. -/
def Obligations.ResetLeavesNoConfiguration : Prop :=
  ∀ p : Params, (State.resetWith p).valid = false ∧ (State.resetWith p).cfg = none ∧
    (State.resetWith p).host = [] ∧ (State.resetWith p).responses = [] ∧ (State.resetWith p).nextCommand = 0

/-- 70_reset_and_hazards.md R230, R231: a reset, also one that cuts a command off, leaves the state of R33 with the same
parameters, and the command has no response. That the observed responses start afresh is the model's choice (log 7). -/
def Obligations.ResetAbandonsCommand : Prop :=
  ∀ (s : State) (rest : List HostEvent),
    (s.host = .reset :: rest →
      step s = .next { params := s.params, cfg := none, nextCommand := 0, host := rest, responses := [] }) ∧
    ∀ c : Command, s.host = .resetDuring c :: rest → s.params.overLong c.payload.length = false →
      step s = .next { params := s.params, cfg := none, nextCommand := 0, host := rest, responses := [] }

/-- 20_memory.md R41 and 60_exceptions.md R213: with no command from the host, the core waits and nothing changes
(a step of the model: log 5). -/
def Obligations.CoreWaitsForHost : Prop :=
  ∀ s : State, s.host = [] → step s = .next s

/-- The step performs the instruction its command decodes to, in the state with that command taken from the host. -/
def Obligations.StepPerformsDecodedCommand : Prop :=
  ∀ (s : State) (c : Command) (rest : List HostEvent) (i : Instr),
    s.host = .command c :: rest → s.params.overLong c.payload.length = false → decode c = .ok i →
      step s = exec i { s with host := rest }

/-- The next step after `withFetchWord` performs exactly the instruction of the table word, whatever LMAX is. -/
def Obligations.FetchWordIsPerformedNext : Prop :=
  ∀ (s : State) (w : Nat) (i : Instr), decodeTableWord 16 w = some i → step (s.withFetchWord 16 w) = exec i s

/-- 60_exceptions.md R210, from the bits of the header (OP = `hdr / 4096`, ARG = `hdr mod 4096`): the checks in their
order, the earliest that fails deciding the response. The clauses do not overlap. -/
def Obligations.StepFollowsCheckOrder : Prop :=
  ∀ (s : State) (c : Command) (rest : List HostEvent), s.host = .command c :: rest →
    (∀ g, s.cfg = some g → g.Legal s.params) →
    let op := c.hdr.toNat / 4096
    let arg := c.hdr.toNat % 4096
    let len := c.payload.length
    let answer := fun (rsp : Response) (cfg : Option Configuration) =>
      (Host.Outcome.next { s with host := rest, cfg := cfg, responses := s.responses ++ [rsp],
                                  nextCommand := s.nextCommand + 1 } : Outcome)
    if s.params.overLong len then step s = .refused (.payloadTooLong len)
    else if op = 1 then
      if len ≠ 0 then step s = answer ⟨0x4000#16, []⟩ s.cfg
      else if arg < 2 ∨ s.params.rmax < arg then step s = answer ⟨0x1000#16, []⟩ s.cfg
      else step s = answer ⟨0x0000#16, []⟩ (some ⟨arg, hsys arg, gen arg, tab arg⟩)
    else if op = 2 then
      if arg ≠ 0 then step s = answer ⟨0x4000#16, []⟩ s.cfg
      else match s.cfg with
        | none => step s = answer ⟨0x3000#16, []⟩ s.cfg
        | some g =>
          if len % (2 ^ g.r - 1 - g.r) ≠ 0 then step s = answer ⟨0x2000#16, []⟩ s.cfg
          else step s = answer ⟨0x0000#16, encodeSeq g c.payload⟩ s.cfg
    else if op = 3 then
      if arg ≠ 0 then step s = answer ⟨0x4000#16, []⟩ s.cfg
      else match s.cfg with
        | none => step s = answer ⟨0x3000#16, []⟩ s.cfg
        | some g =>
          if len % (2 ^ g.r - 1) ≠ 0 then step s = answer ⟨0x2000#16, []⟩ s.cfg
          else ∃ out, decodeSeq g c.payload = some out ∧ step s = answer ⟨0x0000#16, out⟩ s.cfg
    else step s = answer ⟨0x4000#16, []⟩ s.cfg

/-- 30_encoding.md R65: exactly the named headers and payloads are illegal, and an illegal command is answered with
IllegalCommandError and an empty payload and writes no state. -/
def Obligations.IllegalCommandsAreExactlyReserved : Prop :=
  ∀ c : Command,
    let op := c.hdr.toNat / 4096
    let arg := c.hdr.toNat % 4096
    ((∃ why, decode c = .error why) ↔
      (op = 0 ∨ 4 ≤ op) ∨ (op = 1 ∧ c.payload ≠ []) ∨ ((op = 2 ∨ op = 3) ∧ arg ≠ 0)) ∧
    ∀ (s : State) (rest : List HostEvent) (why : IllegalReason),
      s.host = .command c :: rest → s.params.overLong c.payload.length = false → decode c = .error why →
        step s = .next { s with host := rest, responses := s.responses ++ [⟨0x4000#16, []⟩],
                                nextCommand := s.nextCommand + 1 }

/-- 60_exceptions.md R212 and 00_scope.md R9: a step is Refused exactly when the next command's payload is longer than a
bounded LMAX. Two clauses are the model's choice and no rule's: that the mark ends the run there, with the observation
given (log 15, DEDUCED: 70_reset_and_hazards.md R238 says nothing of a run with a Refused command), and that a cut-off
command is Refused too (log 7). -/
def Obligations.RefusedExactlyWhenPayloadTooLong : Prop :=
  ∀ s : State,
    (∀ why, step s = .refused why ↔ ∃ c rest bound,
      (s.host = .command c :: rest ∨ s.host = .resetDuring c :: rest) ∧ s.params.lmax = some bound ∧
      bound < c.payload.length ∧ why = .payloadTooLong c.payload.length) ∧
    ∀ why k, step s = .refused why →
      runFor (k + 1) s = { responses := s.responses, final := s, ending := .refused why }

/-- 20_memory.md R54 ("No command can modify the command stream") and 00_scope.md R8, R9: whatever a step does, it takes
one event from the host and leaves the rest of the command stream and the parameters as they were. -/
def Obligations.StepLeavesStreamAndParameters : Prop :=
  ∀ s t : State, step s = .next t → t.host = s.host.tail ∧ t.params = s.params

/-! ## Encoding -/

/-- Decoding the encoding of a well-formed instruction gives it back, with every operand at every value. -/
def Obligations.DecodeOfEncodeIsIdentity : Prop :=
  ∀ i : Instr, i.WellFormed → decode (encode i) = .ok i

/-- A command the decoder accepts is the encoding of the instruction it gives, which is well formed. -/
def Obligations.EncodeOfDecodeIsIdentity : Prop :=
  ∀ (c : Command) (i : Instr), decode c = .ok i → i.WellFormed ∧ encode i = c

/-- 30_encoding.md R71: the worked headers. -/
def Obligations.WorkedHeadersDecode : Prop :=
  decode ⟨0x1003#16, []⟩ = .ok (.new 3) ∧ decode ⟨0x1FFF#16, []⟩ = .ok (.new 4095) ∧
  decode ⟨0x2000#16, [true, true, true, true]⟩ = .ok (.enc [true, true, true, true]) ∧
  decode ⟨0x3000#16, []⟩ = .ok (.dec []) ∧
  (∃ why, decode ⟨0x2001#16, [true, true, true, true]⟩ = .error why) ∧
  (∃ why, decode ⟨0x1003#16, [true]⟩ = .error why) ∧
  assemble (.new 3) = ⟨0x1003#16, []⟩ ∧ assemble (.new 4095) = ⟨0x1FFF#16, []⟩ ∧
  assemble (.enc [true, true, true, true]) = ⟨0x2000#16, [true, true, true, true]⟩ ∧
  assemble (.dec []) = ⟨0x3000#16, []⟩ ∧
  assemble (.cmd 0x2001#16 [true, true, true, true]) = ⟨0x2001#16, [true, true, true, true]⟩ ∧
  assemble (.cmd 0x1003#16 [true]) = ⟨0x1003#16, [true]⟩

/-- 30_encoding.md R70: an assembled NEW, ENC or DEC line is the encoding of that instruction, and `.cmd` gives any raw
command, so every command can be written. -/
def Obligations.AssemblerReachesEveryCommand : Prop :=
  (∀ r, r ≤ 4095 → decode (assemble (.new r)) = .ok (.new r)) ∧
  (∀ x, decode (assemble (.enc x)) = .ok (.enc x)) ∧ (∀ x, decode (assemble (.dec x)) = .ok (.dec x)) ∧
  ∀ c : Command, ∃ l : AsmLine, l.WellFormed ∧ assemble l = c

/-- 20_memory.md R45 and 30_encoding.md R69: a frame sends the header, or the status word, bit 15 first; a command's
frame has `16 + L` bits and gives the command back. -/
def Obligations.FrameRoundTrip : Prop :=
  (∀ c : Command, (commandFrame c).length = 16 + c.payload.length ∧
    (∀ k, k < 16 → (commandFrame c)[k]? = some (c.hdr.getLsbD (15 - k))) ∧
    commandOfFrame (commandFrame c) = some c) ∧
  ∀ (r : Response) (k : Nat), k < 16 → (responseFrame r)[k]? = some (r.rsp.getLsbD (15 - k))

/-- 00_scope.md R13: `be_w(x)` is the unique vector of `w` bits whose big-endian value is `x`, and that value is the sum
of the bits' weights. -/
def Obligations.BigEndianValueRoundTrip : Prop :=
  (∀ w x, x < 2 ^ w → (be w x).length = w ∧ intBe (be w x) = x) ∧
  (∀ v : Bits, intBe v < 2 ^ v.length ∧ be v.length (intBe v) = v) ∧
  ∀ v : Bits, intBe v =
    ((List.range v.length).map fun k => (v.getD k false).toNat * 2 ^ (v.length - 1 - k)).sum

/-! ## Construction and NEW -/

/-- 40_construction.md R90: NEW with `2 ≤ r ≤ RMAX` completes; it installs CFG.R, H, G and T for `r`, sets CFG.VALID and
answers OK with an empty payload. Everything else is unchanged, whatever configuration was in force (R92). -/
def Obligations.NewInstallsConfiguration : Prop :=
  ∀ (r : Nat) (s : State), 2 ≤ r → r ≤ s.params.rmax →
    exec (.new r) s = .next { s with
      cfg := some { r := r, H := hsys r, G := gen r, T := tab r }
      responses := s.responses ++ [⟨0x0000#16, []⟩]
      nextCommand := s.nextCommand + 1 }

/-- 40_construction.md R91 and 60_exceptions.md R202: NEW with `r` outside `2..RMAX` answers InvalidParameterError and
the configuration in force, if any, stays. -/
def Obligations.FailedNewWritesNoState : Prop :=
  ∀ (r : Nat) (s : State), (r < 2 ∨ s.params.rmax < r) →
    exec (.new r) s = .next { s with
      responses := s.responses ++ [⟨0x1000#16, []⟩]
      nextCommand := s.nextCommand + 1 }

/-- 40_construction.md R82: H0 is `r × n`, and its column `j` is the `r`-bit big-endian form of `j + 1`. -/
def Obligations.NonSystematicColumns : Prop :=
  ∀ r, hasShape r (codeN r) (h0 r) ∧ ∀ j, j < codeN r → col (h0 r) j = be r (j + 1) ∧
    ∀ k, k < r → entry (h0 r) k j = (((j + 1) >>> (r - 1 - k)) % 2 == 1)

/-- 40_construction.md R88: the closed form of the column values, which is what the swap loop leaves. The first two cases
meet only at `r = 2`, position 1. -/
def Obligations.ColumnValuesClosedForm : Prop :=
  ∀ r, 2 ≤ r →
    (∀ i, i < r → colval (hsys r) (2 ^ r - 1 - 1 - i) = 2 ^ i) ∧
    (∀ i, i < r → (∀ i', i' < r → 2 ^ i - 1 ≠ 2 ^ r - 1 - 1 - i') → colval (hsys r) (2 ^ i - 1) = 2 ^ r - 1 - i) ∧
    (∀ j, j < 2 ^ r - 1 → (∀ i, i < r → j ≠ 2 ^ r - 1 - 1 - i) → (∀ i, i < r → j ≠ 2 ^ i - 1) →
      colval (hsys r) j = j + 1) ∧
    (∀ i i', i < r → i' < r → 2 ^ i - 1 = 2 ^ r - 1 - 1 - i' → r = 2 ∧ i = 1 ∧ i' = 1) ∧
    (colvals r).length = 2 ^ r - 1 ∧ ∀ j, j < 2 ^ r - 1 → (colvals r)[j]? = some (colval (hsys r) j)

/-- 40_construction.md R83 and conflict C1: taking the `r` swaps in any order gives the same column values. -/
def Obligations.SwapOrderHasNoEffect : Prop :=
  ∀ (r : Nat) (order : List Nat), 2 ≤ r → order.Perm (List.range r) → colvalsAfter r order = colvals r

/-- 40_construction.md R84, R87: Hsys is `r × n`, its bits are those of the column values, `colval(j)` reads them back,
its last `r` columns are the identity, and position `n - 1 - i` has value `2^i`. -/
def Obligations.ParityCheckMatrixIsSystematic : Prop :=
  ∀ r, 2 ≤ r → hasShape r (codeN r) (hsys r) ∧
    (∀ j, j < codeN r → colval (hsys r) j = (colvals r).getD j 0 ∧
      ∀ k, k < r → entry (hsys r) k j = (((colvals r).getD j 0 >>> (r - 1 - k)) % 2 == 1)) ∧
    (∀ k k', k < r → k' < r → entry (hsys r) k (codeM r + k') = decide (k = k')) ∧
    ∀ i, i < r → colval (hsys r) (codeN r - 1 - i) = 2 ^ i

/-- 40_construction.md R85: Gen is `m × n`, the identity followed by the transpose of H's first `m` columns. -/
def Obligations.GeneratorMatrixEntries : Prop :=
  ∀ r, 2 ≤ r → hasShape (codeM r) (codeN r) (gen r) ∧ ∀ i, i < codeM r →
    (∀ j, j < codeM r → entry (gen r) i j = decide (i = j)) ∧
    ∀ k, k < r → entry (gen r) i (codeM r + k) = entry (hsys r) k i

/-- 40_construction.md R86, R89: the column values are a permutation of `1..n`, and the table is a bijection between
`1..n` and the positions, its entry 0 reserved. -/
def Obligations.SyndromeTableIsBijection : Prop :=
  ∀ r, 2 ≤ r →
    ((List.range (codeN r)).map (colval (hsys r))).Perm ((List.range (codeN r)).map (· + 1)) ∧
    (tab r).length = 2 ^ r ∧ (tab r)[0]? = some none ∧
    (∀ j, j < codeN r → (tab r)[colval (hsys r) j]? = some (some j)) ∧
    ∀ v, 1 ≤ v → v ≤ codeN r → ∃ j, j < codeN r ∧ (tab r)[v]? = some (some j) ∧ colval (hsys r) j = v

/-- 40_construction.md R94: `Hsys · transpose(Gen) = 0`: every row of G, and every codeword of a data block, has
syndrome 0. -/
def Obligations.CodewordsHaveZeroSyndrome : Prop :=
  ∀ r, 2 ≤ r → (∀ row ∈ gen r, mv (hsys r) row = List.replicate r false) ∧
    (∀ i j, i < codeM r → j < codeM r → entry (gen r) i j = decide (i = j)) ∧
    ∀ d : Bits, d.length = codeM r → mv (hsys r) (vm (codeN r) d (gen r)) = List.replicate r false

/-! ## gf2_matrix_mult -/

/-- 41_gf2_matrix_mult.md R101: VM's elements, zero and unit vectors, linearity, and the worked product. -/
def Obligations.VectorMatrixProduct : Prop :=
  (∀ (a b : Nat) (v : Bits) (M : Matrix), hasShape a b M → v.length = a →
    (vm b v M).length = b ∧
    (∀ j, j < b → (vm b v M)[j]? =
      some (xorSum ((List.range a).map fun i => v.getD i false && entry M i j))) ∧
    vm b (List.replicate a false) M = List.replicate b false ∧
    (∀ i, i < a → vm b (unitVec a i) M = M.getD i []) ∧
    ∀ u : Bits, u.length = a → vm b (xorBits u v) M = xorBits (vm b u M) (vm b v M)) ∧
  vm 7 [true, false, true, false] (gen 3) = [true, false, true, false, true, false, false]

/-- 41_gf2_matrix_mult.md R102: MV's elements, zero and unit vectors, linearity, MV as VM of the transpose, and the
worked product. -/
def Obligations.MatrixVectorProduct : Prop :=
  (∀ (a b : Nat) (v : Bits) (M : Matrix), hasShape a b M → v.length = b →
    (mv M v).length = a ∧
    (∀ k, k < a → (mv M v)[k]? =
      some (xorSum ((List.range b).map fun j => entry M k j && v.getD j false))) ∧
    mv M (List.replicate b false) = List.replicate a false ∧
    (∀ j, j < b → mv M (unitVec b j) = col M j ∧ intBe (mv M (unitVec b j)) = colval M j) ∧
    (∀ u : Bits, u.length = b → mv M (xorBits u v) = xorBits (mv M u) (mv M v)) ∧
    mv M v = vm a v (transpose b M)) ∧
  mv (hsys 3) [false, true, true, true, true, true, true] = [true, true, true]

/-- 41_gf2_matrix_mult.md R104: the packed products equal VM and MV bit for bit. -/
def Obligations.PackedProductsAgree : Prop :=
  ∀ (a b : Nat) (M : Matrix), hasShape a b M →
    (∀ v : Bits, v.length = a → vmPacked b v M = vm b v M) ∧ ∀ v : Bits, v.length = b → mvPacked M v = mv M v

/-! ## hamming_encoder and ENC -/

/-- 42_hamming_encoder.md R122: a codeword is its data followed by the parity bits of H's rows. -/
def Obligations.CodewordIsSystematic : Prop :=
  ∀ (p : Params) (c : Configuration) (d : Bits), c.Legal p → d.length = c.M →
    (encodeBlock c d).length = c.N ∧
    (∀ i, i < c.M → (encodeBlock c d)[i]? = d[i]?) ∧
    ∀ k, k < c.r → (encodeBlock c d)[c.M + k]? =
      some (xorSum ((List.range c.M).map fun i => d.getD i false && entry c.H k i))

/-- 42_hamming_encoder.md R123, R124: ENC of `k` blocks completes with OK and the `k` codewords in block order, block
`b` being `VM` of data block `b` and G. It writes no other state. -/
def Obligations.EncRespondsWithCodewords : Prop :=
  ∀ (s : State) (c : Configuration) (x : Bits), s.cfg = some c → x.length % c.M = 0 →
    ∃ out, exec (.enc x) s = .next { s with
        responses := s.responses ++ [⟨0x0000#16, out⟩], nextCommand := s.nextCommand + 1 } ∧
      out.length = x.length / c.M * c.N ∧
      ∀ b, b < x.length / c.M →
        slice out (b * c.N) ((b + 1) * c.N) = vm c.N (slice x (b * c.M) ((b + 1) * c.M)) c.G

/-- 42_hamming_encoder.md R124, R125 and 60_exceptions.md R204: ENC with no configuration answers NotConfiguredError
whatever its length; with one, a length that is no multiple of `m` answers InvalidLengthError. No output, and the
configuration stays. -/
def Obligations.EncErrorsReturnNoOutput : Prop :=
  ∀ (s : State) (x : Bits),
    (s.cfg = none → exec (.enc x) s = .next { s with
      responses := s.responses ++ [⟨0x3000#16, []⟩], nextCommand := s.nextCommand + 1 }) ∧
    ∀ c, s.cfg = some c → x.length % c.M ≠ 0 → exec (.enc x) s = .next { s with
      responses := s.responses ++ [⟨0x2000#16, []⟩], nextCommand := s.nextCommand + 1 }

/-! ## syndrome_lookup_table and bit_error_corrector -/

/-- 43_syndrome_lookup_table.md R141, R142: LOOKUP answers `(0, 0)` for syndrome 0 and hits for every other syndrome,
with the position of the column that has the syndrome's value. -/
def Obligations.LookupHitsEveryNonzeroSyndrome : Prop :=
  ∀ (p : Params) (c : Configuration) (s : Bits), c.Legal p → s.length = c.r →
    (intBe s = 0 → lookup c.T s = some { hit := false, pos := 0 }) ∧
    (intBe s ≠ 0 → ∃ pos, pos < c.N ∧ lookup c.T s = some { hit := true, pos := pos } ∧ col c.H pos = s)

/-- 43_syndrome_lookup_table.md R143: the syndrome of a codeword with one bit flipped is that bit's column, and LOOKUP
answers its position. -/
def Obligations.SingleErrorIsLocated : Prop :=
  ∀ (p : Params) (c : Configuration) (cw : Bits) (q : Nat), c.Legal p → cw.length = c.N → q < c.N →
    mv c.H cw = List.replicate c.r false →
      mv c.H (flipBit cw q) = col c.H q ∧ lookup c.T (mv c.H (flipBit cw q)) = some { hit := true, pos := q }

/-- 44_bit_error_corrector.md R161, R162: CORRECT leaves the block for syndrome 0 and otherwise changes exactly the one
bit the table names, whether or not the flip is right. -/
def Obligations.CorrectorFlipsExactlyNamedBit : Prop :=
  ∀ (p : Params) (c : Configuration) (block s : Bits), c.Legal p → block.length = c.N → s.length = c.r →
    (intBe s = 0 → correct c.T block s = some block) ∧
    (intBe s ≠ 0 → ∃ q fixed, q < c.N ∧ c.T[intBe s]? = some (some q) ∧ correct c.T block s = some fixed ∧
      fixed.length = block.length ∧ fixed.getD q false = !block.getD q false ∧
      ∀ j, j ≠ q → fixed[j]? = block[j]?)

/-! ## hamming_decoder and DEC -/

/-- 45_hamming_decoder.md R181, R183, R184 and R186: DEC of `k` blocks completes with OK whatever errors the blocks hold.
Output block `b` is the first `m` bits of input block `b`, with the bit its nonzero syndrome names flipped. It writes no
other state. -/
def Obligations.DecRespondsWithCorrectedData : Prop :=
  ∀ (s : State) (c : Configuration) (x : Bits), s.cfg = some c → c.Legal s.params → x.length % c.N = 0 →
    ∃ out, exec (.dec x) s = .next { s with
        responses := s.responses ++ [⟨0x0000#16, out⟩], nextCommand := s.nextCommand + 1 } ∧
      out.length = x.length / c.N * c.M ∧
      ∀ b, b < x.length / c.N →
        let block := slice x (b * c.N) ((b + 1) * c.N)
        let v := intBe (mv c.H block)
        (v = 0 → slice out (b * c.M) ((b + 1) * c.M) = block.take c.M) ∧
        (v ≠ 0 → ∃ q, q < c.N ∧ c.T[v]? = some (some q) ∧
          slice out (b * c.M) ((b + 1) * c.M) = (block.set q (!block.getD q false)).take c.M)

/-- 45_hamming_decoder.md R184, R185 and 60_exceptions.md R204: DEC with no configuration answers NotConfiguredError
whatever its length; with one, a length that is no multiple of `n` answers InvalidLengthError. No output, and the
configuration stays. -/
def Obligations.DecErrorsReturnNoOutput : Prop :=
  ∀ (s : State) (x : Bits),
    (s.cfg = none → exec (.dec x) s = .next { s with
      responses := s.responses ++ [⟨0x3000#16, []⟩], nextCommand := s.nextCommand + 1 }) ∧
    ∀ c, s.cfg = some c → x.length % c.N ≠ 0 → exec (.dec x) s = .next { s with
      responses := s.responses ++ [⟨0x2000#16, []⟩], nextCommand := s.nextCommand + 1 }

/-- 45_hamming_decoder.md R186: the syndrome of a received block depends on its error pattern alone; a pattern whose
columns sum to 0 is passed through uncorrected. -/
def Obligations.UndetectedErrorsPassThrough : Prop :=
  ∀ (p : Params) (c : Configuration) (cw e : Bits), c.Legal p → cw.length = c.N → e.length = c.N →
    mv c.H cw = List.replicate c.r false →
      mv c.H (xorBits cw e) = mv c.H e ∧
      (mv c.H e = List.replicate c.r false → decodeBlock c (xorBits cw e) = some ((xorBits cw e).take c.M))

/-- 45_hamming_decoder.md R187: decoding what ENC answers gives the data back, through the two commands. -/
def Obligations.EncThenDecReturnsData : Prop :=
  ∀ (s : State) (c : Configuration) (x : Bits), s.cfg = some c → c.Legal s.params → x.length % c.M = 0 →
    ∃ y t u, exec (.enc x) s = .next t ∧ t.responses = s.responses ++ [⟨0x0000#16, y⟩] ∧
      exec (.dec y) t = .next u ∧ u.responses = t.responses ++ [⟨0x0000#16, x⟩]

/-- 45_hamming_decoder.md R188: flipping any one bit of a codeword block and decoding it gives the data block. -/
def Obligations.SingleErrorBlockIsCorrected : Prop :=
  ∀ (p : Params) (c : Configuration) (d : Bits) (q : Nat), c.Legal p → d.length = c.M → q < c.N →
    decodeBlock c (flipBit (encodeBlock c d) q) = some d

/-- 45_hamming_decoder.md R181, R187, R188 and 95_test_vectors.md S8: DEC recovers the data of a whole ENC response in
which every block has at most one flipped bit, wherever it is. -/
def Obligations.OneErrorPerBlockIsCorrected : Prop :=
  ∀ (s t : State) (c : Configuration) (x y received : Bits),
    s.cfg = some c → c.Legal s.params → x.length % c.M = 0 →
    exec (.enc x) s = .next t → t.responses = s.responses ++ [⟨0x0000#16, y⟩] →
    received.length = y.length →
    (∀ b, b < y.length / c.N →
      slice received (b * c.N) ((b + 1) * c.N) = slice y (b * c.N) ((b + 1) * c.N) ∨
      ∃ q, q < c.N ∧
        slice received (b * c.N) ((b + 1) * c.N) = flipBit (slice y (b * c.N) ((b + 1) * c.N)) q) →
    exec (.dec received) t = .next { t with
      responses := t.responses ++ [⟨0x0000#16, x⟩], nextCommand := t.nextCommand + 1 }

/-- 42_hamming_encoder.md R123 and 45_hamming_decoder.md R181: each block is encoded and decoded on its own. -/
def Obligations.BlocksAreIndependent : Prop :=
  ∀ (c : Configuration) (x y : Bits),
    (x.length % c.M = 0 → encodeSeq c (x ++ y) = encodeSeq c x ++ encodeSeq c y) ∧
    ∀ out out', x.length % c.N = 0 → decodeSeq c x = some out → decodeSeq c y = some out' →
      decodeSeq c (x ++ y) = some (out ++ out')

/-! ## Whole-machine rules -/

/-- The frame of every command: the parameters and the host's stream stay, exactly one legal response is appended, the
next-command index advances by one (10_state.md R21, 60_exceptions.md R211), and only a NEW that succeeds changes the
configuration (10_state.md R27). -/
def Obligations.EveryCommandKeepsItsFrame : Prop :=
  ∀ (i : Instr) (s t : State), exec i s = .next t →
    t.params = s.params ∧ t.host = s.host ∧ t.nextCommand = s.nextCommand + 1 ∧
    (∃ rsp, t.responses = s.responses ++ [rsp] ∧ rsp.Legal) ∧
    ((∀ x, i = .enc x ∨ i = .dec x → t.cfg = s.cfg) ∧
     ∀ r, i = .new r → (t.cfg = s.cfg ∧ (r < 2 ∨ s.params.rmax < r)) ∨
      (2 ≤ r ∧ r ≤ s.params.rmax ∧ t.cfg = some { r := r, H := hsys r, G := gen r, T := tab r }))

/-- 10_state.md R32, with R21 and 60_exceptions.md R206, R211: every step keeps the invariant. That the responses are
those since the last reset, so that the count of one for each command starts afresh with it, is the model's choice
(log 7, DESIGN CHOICE). -/
def Obligations.EveryStepKeepsInvariant : Prop :=
  ∀ s t : State, s.Inv → step s = .next t → t.Inv

/-- 10_state.md R32 alone: every step from a configuration that, if there is one, meets R32 leaves one that does. -/
def Obligations.EveryStepKeepsConfigurationLegal : Prop :=
  ∀ s t : State, (∀ c, s.cfg = some c → c.Legal s.params) → step s = .next t →
    ∀ c, t.cfg = some c → c.Legal t.params

/-- The invariant holds right after reset, for every value of the parameters and whatever the host side will do. -/
def Obligations.ResetMeetsInvariant : Prop :=
  ∀ (p : Params) (events : List HostEvent), ((State.resetWith p).send events).Inv

/-- 70_reset_and_hazards.md R237: every command that is not Refused completes, with exactly one response. -/
def Obligations.EveryCommandCompletes : Prop :=
  ∀ (s : State) (c : Command) (rest : List HostEvent), s.Inv → s.host = .command c :: rest →
    s.params.overLong c.payload.length = false →
    ∃ t rsp, step s = .next t ∧ t.host = rest ∧ t.responses = s.responses ++ [rsp] ∧
      t.nextCommand = s.nextCommand + 1

/-- 70_reset_and_hazards.md R237, R238 and 60_exceptions.md R211: a run from reset is safe exactly when no payload is
longer than LMAX, and it then has one response for each command and ends in a state that meets the invariant. Of any other
run nothing is claimed but that it is not safe (R212). -/
def Obligations.RunFromResetAnswersEveryCommand : Prop :=
  ∀ (p : Params) (commands : List Command),
    ((runCommands p commands).Safe ↔ ∀ c ∈ commands, p.overLong c.payload.length = false) ∧
    ((∀ c ∈ commands, p.overLong c.payload.length = false) →
      (runCommands p commands).Holds fun o => o.responses.length = commands.length ∧ o.final.Inv)

/-- 60_exceptions.md R212: the first command whose payload is longer than LMAX marks the whole run Refused, whatever the
host sends after it, and no claim holds of that run; with LMAX unbounded no run is Refused. That the mark ends the run is
the model's choice (log 15). -/
def Obligations.NoClaimHoldsOfRefusedRun : Prop :=
  ∀ p : Params,
    (∀ (before : List Command) (c : Command) (after : List Command),
      (∀ b ∈ before, p.overLong b.payload.length = false) → p.overLong c.payload.length = true →
      (runCommands p (before ++ c :: after)).ending = .refused (.payloadTooLong c.payload.length) ∧
      ∀ claim, ¬ (runCommands p (before ++ c :: after)).Holds claim) ∧
    (p.lmax = none → ∀ (commands : List Command) (why : Refusal), (runCommands p commands).ending ≠ .refused why)

/-- 10_state.md R27: over any number of steps whose events are commands that are no successful NEW, the configuration does
not change, whatever the host does after them (a successful NEW among it). -/
def Obligations.ConfigurationStaysUntilNextNew : Prop :=
  ∀ (k : Nat) (s : State),
    (∀ e ∈ s.host.take k, ∃ c, e = .command c ∧ keepsConfiguration c s.params.rmax) →
    (runFor k s).final.cfg = s.cfg

/-- 70_reset_and_hazards.md R232 and 60_exceptions.md R204: before a NEW succeeds, no ENC or DEC does: every response of
a run from reset without a successful NEW is an error with an empty payload, NotConfiguredError for ENC and DEC. -/
def Obligations.NothingSucceedsBeforeNew : Prop :=
  ∀ (p : Params) (commands : List Command),
    (∀ c ∈ commands, keepsConfiguration c p.rmax ∧ p.overLong c.payload.length = false) →
    (runCommands p commands).Holds fun o => o.responses = commands.map fun c =>
      match decode c with
      | .ok (.new _) => ⟨0x1000#16, []⟩
      | .ok (.enc _) => ⟨0x3000#16, []⟩
      | .ok (.dec _) => ⟨0x3000#16, []⟩
      | .error _ => ⟨0x4000#16, []⟩

/-- 20_memory.md R50: ENC and DEC change no configuration and give the same response when sent again, and the same NEW
sent twice leaves the configuration as once. -/
def Obligations.RepeatedCommandsAgree : Prop :=
  (∀ (i : Instr) (x : Bits) (s t : State), (i = .enc x ∨ i = .dec x) → exec i s = .next t →
    t.cfg = s.cfg ∧ ∃ rsp u, t.responses = s.responses ++ [rsp] ∧ exec i t = .next u ∧ u.cfg = s.cfg ∧
      u.responses = t.responses ++ [rsp]) ∧
  ∀ (r : Nat) (s t u : State), exec (.new r) s = .next t → exec (.new r) t = .next u → u.cfg = t.cfg

/-- 40_construction.md R81 and 70_reset_and_hazards.md R233: two cores configured by NEW with the same `r` hold the same
H, G and T, and what one encodes the other decodes. -/
def Obligations.EqualParityOrdersInteroperate : Prop :=
  ∀ (r : Nat) (s₁ s₂ t₁ t₂ : State) (x : Bits), 2 ≤ r → r ≤ s₁.params.rmax → r ≤ s₂.params.rmax →
    exec (.new r) s₁ = .next t₁ → exec (.new r) s₂ = .next t₂ → x.length % (2 ^ r - 1 - r) = 0 →
    t₁.cfg = t₂.cfg ∧
    ∃ y u₁ u₂, exec (.enc x) t₁ = .next u₁ ∧ u₁.responses = t₁.responses ++ [⟨0x0000#16, y⟩] ∧
      exec (.dec y) t₂ = .next u₂ ∧ u₂.responses = t₂.responses ++ [⟨0x0000#16, x⟩]

/-- 70_reset_and_hazards.md R234: after a NEW with another `r`, DEC uses the new tables at once: InvalidLengthError if
the length is no multiple of the new `n`, otherwise OK with data decoded under the new code. -/
def Obligations.ReconfigurationHazard : Prop :=
  ∀ (r : Nat) (s : State) (x : Bits), 2 ≤ r → r ≤ s.params.rmax →
    ∃ t, exec (.new r) s = .next t ∧
      (x.length % (2 ^ r - 1) ≠ 0 → exec (.dec x) t = .next { t with
        responses := t.responses ++ [⟨0x2000#16, []⟩], nextCommand := t.nextCommand + 1 }) ∧
      (x.length % (2 ^ r - 1) = 0 → ∃ out,
        decodeSeq { r := r, H := hsys r, G := gen r, T := tab r } x = some out ∧
        exec (.dec x) t = .next { t with
          responses := t.responses ++ [⟨0x0000#16, out⟩], nextCommand := t.nextCommand + 1 })

/-- 10_state.md R29, R30: a command's response and the configuration it leaves depend only on the command, the
configuration and RMAX: no earlier response, index or pending event can be read. -/
def Obligations.ResponseDependsOnlyOnConfiguration : Prop :=
  ∀ (i : Instr) (s s' t : State), s.cfg = s'.cfg → s.params.rmax = s'.params.rmax → exec i s = .next t →
    ∃ rsp t', exec i s' = .next t' ∧ t.responses = s.responses ++ [rsp] ∧ t'.responses = s'.responses ++ [rsp] ∧
      t'.cfg = t.cfg

/-- 00_scope.md R10 and 10_state.md R24 to R26: the sizes of H, G and T in a legal configuration. -/
def Obligations.LegalConfigurationSizes : Prop :=
  ∀ (p : Params) (c : Configuration), c.Legal p →
    hasShape c.r (2 ^ c.r - 1) c.H ∧ hasShape (2 ^ c.r - 1 - c.r) (2 ^ c.r - 1) c.G ∧
    c.T.length = 2 ^ c.r ∧ c.T[0]? = some none ∧
    ∀ v, 1 ≤ v → v < 2 ^ c.r → ∃ q, q < 2 ^ c.r - 1 ∧ c.T[v]? = some (some q)
end

