-- ==== Sys2Proof/Laws/Bits.lean ====
section
/-!
SUPPORT. Slices and blocks of a payload, big-endian numbers, and the algebra of the GF(2) products.
-/

namespace Sys2Proof.Machine

/-! ## Slices and flips -/

theorem slice_append_left {d y : Bits} {w : Nat} (h : d.length = w) : slice (d ++ y) 0 w = d := by
  subst h; simp [slice]

theorem slice_append_right {d y : Bits} {w a b : Nat} (h : d.length = w) :
    slice (d ++ y) (w + a) (w + b) = slice y a b := by
  subst h
  rw [slice, slice, Nat.add_sub_add_left, List.drop_length_add_append]

theorem slice_length {x : Bits} {a b : Nat} (h : b ≤ x.length) : (slice x a b).length = b - a := by
  simp only [slice, List.length_take, List.length_drop]; omega

theorem slice_zero (x : Bits) (b : Nat) : slice x 0 b = x.take b := by simp [slice]

@[simp] theorem flipBit_length (x : Bits) (p : Nat) : (flipBit x p).length = x.length := by simp [flipBit]

theorem flipBit_flipBit {x : Bits} {p : Nat} (h : p < x.length) : flipBit (flipBit x p) p = x := by
  apply List.ext_getElem?
  intro j
  by_cases hj : p = j
  · subst hj; simp [flipBit, h]
  · simp [flipBit, List.getElem?_set, hj]

/-- Flipping a bit is adding a unit vector. -/
theorem flipBit_eq_xorBits {x : Bits} {w p : Nat} (hx : x.length = w) (hp : p < w) :
    flipBit x p = xorBits x (unitVec w p) := by
  subst hx
  apply List.ext_getElem
  · simp [xorBits, unitVec]
  intro j h1 h2
  have hj : j < x.length := by simpa using h1
  by_cases h : p = j
  · subst h; simp [flipBit, xorBits, unitVec, hj]
  · have h' : ¬ j = p := fun e => h e.symm
    simp [flipBit, xorBits, unitVec, h, h']

/-! ## Blocks -/

theorem blocks_nil (w : Nat) : blocks w [] = [] := by simp [blocks]

theorem blocks_cons {d y : Bits} {w : Nat} (hw : 0 < w) (h : d.length = w) :
    blocks w (d ++ y) = d :: blocks w y := by
  have hdiv : (d ++ y).length / w = y.length / w + 1 := by
    rw [List.length_append, h, Nat.add_comm, Nat.add_div_right _ hw]
  unfold blocks
  rw [hdiv, List.range_succ_eq_map, List.map_cons, List.map_map]
  congr 1
  · simp only [Nat.zero_mul, Nat.zero_add, Nat.one_mul]; exact slice_append_left h
  · refine List.map_congr_left fun b _ => ?_
    have e1 : Nat.succ b * w = w + b * w := by rw [Nat.succ_mul]; omega
    have e2 : (Nat.succ b + 1) * w = w + (b + 1) * w := by rw [Nat.succ_mul (Nat.succ b), Nat.succ_eq_add_one]; omega
    simp only [Function.comp, e1, e2]
    exact slice_append_right h

/-- A payload whose length is a multiple of the block width is empty or a block followed by such a payload. -/
theorem block_induction {w : Nat} (hw : 0 < w) {P : Bits → Prop} (nil : P [])
    (cons : ∀ d y : Bits, d.length = w → y.length % w = 0 → P y → P (d ++ y)) :
    ∀ x : Bits, x.length % w = 0 → P x := by
  intro x
  induction hn : x.length using Nat.strong_induction_on generalizing x with
  | _ n ih =>
    intro hx
    by_cases h0 : x = []
    · subst h0; exact nil
    · have hlen : 0 < x.length := List.length_pos_iff.mpr h0
      have hle : w ≤ x.length := by
        by_contra hlt
        rw [← hn, Nat.mod_eq_of_lt (by omega)] at hx
        omega
      have hd : (x.take w).length = w := by simp; omega
      have hy : (x.drop w).length % w = 0 := by
        rw [List.length_drop, ← Nat.mod_eq_sub_mod hle, hn]; exact hx
      have := cons (x.take w) (x.drop w) hd hy (ih (x.drop w).length (by simp; omega) _ rfl hy)
      rwa [List.take_append_drop] at this

theorem blocks_append {w : Nat} (hw : 0 < w) {x y : Bits} (hx : x.length % w = 0) :
    blocks w (x ++ y) = blocks w x ++ blocks w y := by
  refine block_induction hw (P := fun x => blocks w (x ++ y) = blocks w x ++ blocks w y) ?_ ?_ x hx
  · simp [blocks_nil]
  · intro d z hd _ ih
    rw [List.append_assoc, blocks_cons hw hd, ih, blocks_cons hw hd, List.cons_append]

@[simp] theorem blocks_length (w : Nat) (x : Bits) : (blocks w x).length = x.length / w := by simp [blocks]

theorem blocks_getElem {w b : Nat} {x : Bits} (h : b < (blocks w x).length) :
    (blocks w x)[b] = slice x (b * w) ((b + 1) * w) := by simp [blocks]

theorem length_of_mem_blocks {w : Nat} {x d : Bits} (h : d ∈ blocks w x) : d.length = w := by
  obtain ⟨b, hb, rfl⟩ := List.mem_map.mp h
  rw [List.mem_range] at hb
  have hle : (b + 1) * w ≤ x.length :=
    le_trans (Nat.mul_le_mul_right w (by omega)) (Nat.div_mul_le_self x.length w)
  rw [slice_length hle, Nat.succ_mul]; omega

/-- The blocks of a concatenation of codewords or data blocks of one width. -/
theorem length_flatMap_const {α : Type} {f : α → Bits} {n : Nat} (hf : ∀ a, (f a).length = n) (l : List α) :
    (l.flatMap f).length = l.length * n := by
  induction l with
  | nil => simp
  | cons a l ih => rw [List.flatMap_cons, List.length_append, hf, ih, List.length_cons, Nat.succ_mul]; omega

theorem slice_flatMap {α : Type} {f : α → Bits} {n : Nat} (hf : ∀ a, (f a).length = n) (l : List α)
    (b : Nat) (hb : b < l.length) : slice (l.flatMap f) (b * n) ((b + 1) * n) = f l[b] := by
  induction l generalizing b with
  | nil => simp at hb
  | cons a l ih =>
    rw [List.flatMap_cons]
    cases b with
    | zero => simpa using slice_append_left (hf a)
    | succ b =>
      have e1 : (b + 1) * n = n + b * n := by rw [Nat.succ_mul]; omega
      have e2 : (b + 1 + 1) * n = n + (b + 1) * n := by rw [Nat.succ_mul (b + 1)]; omega
      rw [e2, e1, slice_append_right (hf a), ← e1, ih b (by simpa using hb)]
      simp

/-! ## Numbers -/

@[simp] theorem be_length (w x : Nat) : (be w x).length = w := by simp [be]

theorem foldl_double (v : Bits) (acc : Nat) :
    v.foldl (fun acc b => 2 * acc + b.toNat) acc = acc * 2 ^ v.length + intBe v := by
  induction v generalizing acc with
  | nil => simp [intBe]
  | cons b v ih =>
    have h : intBe (b :: v) = b.toNat * 2 ^ v.length + intBe v := by
      rw [intBe, List.foldl_cons]
      simpa using ih (2 * 0 + b.toNat)
    rw [List.foldl_cons, ih, h, List.length_cons, Nat.pow_succ]; ring

theorem intBe_nil : intBe [] = 0 := rfl

theorem intBe_cons (b : Bit) (v : Bits) : intBe (b :: v) = b.toNat * 2 ^ v.length + intBe v := by
  rw [intBe, List.foldl_cons, foldl_double]; simp

theorem intBe_lt (v : Bits) : intBe v < 2 ^ v.length := by
  induction v with
  | nil => simp [intBe_nil]
  | cons b v ih =>
    rw [intBe_cons, List.length_cons, Nat.pow_succ]
    have : b.toNat ≤ 1 := b.toNat_le
    have : b.toNat * 2 ^ v.length ≤ 1 * 2 ^ v.length := Nat.mul_le_mul_right _ this
    omega

theorem testBit_intBe_cons (b : Bit) (v : Bits) (k : Nat) :
    (intBe (b :: v)).testBit k = if k = v.length then b else (intBe v).testBit k := by
  have hlt := intBe_lt v
  rw [intBe_cons]
  cases b
  · simp only [Bool.toNat_false, Nat.zero_mul, Nat.zero_add]
    split
    · subst k; exact Nat.testBit_lt_two_pow hlt
    · rfl
  · simp only [Bool.toNat_true, Nat.one_mul]
    split
    · subst k
      rw [Nat.testBit_two_pow_add_eq, Nat.testBit_lt_two_pow hlt]; rfl
    · rename_i hk
      rcases Nat.lt_or_gt_of_ne hk with hk | hk
      · rw [Nat.testBit_two_pow_add_gt hk]
      · rw [Nat.testBit_lt_two_pow, Nat.testBit_lt_two_pow]
        · exact lt_of_lt_of_le hlt (Nat.pow_le_pow_right (by omega) hk.le)
        · calc 2 ^ v.length + intBe v < 2 ^ (v.length + 1) := by rw [Nat.pow_succ]; omega
            _ ≤ 2 ^ k := Nat.pow_le_pow_right (by omega) hk

theorem be_succ (w x : Nat) : be (w + 1) x = x.testBit w :: be w x := by
  simp only [be, List.range_succ_eq_map, List.map_cons, List.map_map]
  congr 1
  refine List.map_congr_left fun k hk => ?_
  simp only [Function.comp]
  congr 1
  omega

theorem be_congr {w x y : Nat} (h : ∀ k, k < w → x.testBit k = y.testBit k) : be w x = be w y := by
  refine List.map_congr_left fun k hk => ?_
  have := List.mem_range.mp hk
  exact h _ (by omega)

theorem be_intBe (v : Bits) : be v.length (intBe v) = v := by
  induction v with
  | nil => rfl
  | cons b v ih =>
    rw [List.length_cons, be_succ, testBit_intBe_cons, if_pos rfl]
    congr 1
    rw [be_congr (y := intBe v) fun k hk => by rw [testBit_intBe_cons, if_neg (by omega)]]
    exact ih

theorem intBe_be {w x : Nat} (h : x < 2 ^ w) : intBe (be w x) = x := by
  apply Nat.eq_of_testBit_eq
  have hlen : (be w x).length = w := be_length w x
  induction w generalizing x with
  | zero => intro i; have : x = 0 := by omega
            subst this; rfl
  | succ w ih =>
    intro i
    rw [be_succ, testBit_intBe_cons, be_length]
    split
    · subst i; rfl
    · rename_i hi
      have hmod : be w x = be w (x % 2 ^ w) := be_congr fun k hk => by rw [Nat.testBit_mod_two_pow]; simp [hk]
      rw [hmod, ih (Nat.mod_lt _ (Nat.two_pow_pos w)) (be_length _ _), Nat.testBit_mod_two_pow]
      by_cases hiw : i < w
      · simp [hiw]
      · rw [Nat.testBit_lt_two_pow (i := i) (lt_of_lt_of_le h (Nat.pow_le_pow_right (by omega) (by omega)))]; simp

theorem be_inj {w x y : Nat} (hx : x < 2 ^ w) (hy : y < 2 ^ w) (h : be w x = be w y) : x = y := by
  rw [← intBe_be hx, ← intBe_be hy, h]

theorem be_zero (w : Nat) : be w 0 = List.replicate w false := by
  rw [List.eq_replicate_iff]; simp [be]

theorem intBe_eq_zero {v : Bits} (h : intBe v = 0) : v = List.replicate v.length false := by
  rw [← be_zero, ← h, be_intBe]

theorem intBe_replicate_false (w : Nat) : intBe (List.replicate w false) = 0 := by
  rw [← be_zero, intBe_be (Nat.two_pow_pos w)]

theorem be_two_pow {w i : Nat} (h : i < w) : be w (2 ^ i) = unitVec w (w - 1 - i) := by
  refine List.map_congr_left fun k hk => ?_
  have := List.mem_range.mp hk
  rw [Nat.testBit_two_pow]
  congr 1
  exact propext ⟨fun e => by omega, fun e => by omega⟩

/-! ## GF(2) -/

@[simp] theorem xorSum_nil : xorSum [] = false := rfl
@[simp] theorem xorSum_cons (b : Bit) (bs : Bits) : xorSum (b :: bs) = (b ^^ xorSum bs) := rfl
@[simp] theorem dot_nil_left (w : Bits) : dot [] w = false := rfl
@[simp] theorem dot_nil_right (u : Bits) : dot u [] = false := by cases u <;> rfl
@[simp] theorem dot_cons (a b : Bit) (u v : Bits) : dot (a :: u) (b :: v) = ((a && b) ^^ dot u v) := rfl

theorem xorSum_append (u v : Bits) : xorSum (u ++ v) = (xorSum u ^^ xorSum v) := by
  induction u with
  | nil => simp
  | cons a u ih => simp [ih]

theorem dot_comm (u v : Bits) : dot u v = dot v u := by
  induction u generalizing v with
  | nil => simp
  | cons a u ih =>
    cases v with
    | nil => simp
    | cons b v => rw [dot_cons, dot_cons, ih, Bool.and_comm]

/-- Product distributes over sum. -/
theorem dot_xorBits (u v w : Bits) (h : u.length = v.length) : dot (xorBits u v) w = (dot u w ^^ dot v w) := by
  induction u generalizing v w with
  | nil => cases v with
    | nil => simp [xorBits]
    | cons b v => simp at h
  | cons a u ih =>
    cases v with
    | nil => simp at h
    | cons b v =>
      cases w with
      | nil => simp
      | cons c w =>
        have hb : xorBits (a :: u) (b :: v) = (a ^^ b) :: xorBits u v := rfl
        rw [hb, dot_cons, dot_cons, dot_cons, ih v w (by simpa using h)]
        cases a <;> cases b <;> cases c <;> simp [Bool.xor_comm]

theorem dot_replicate_false (n : Nat) (w : Bits) : dot (List.replicate n false) w = false := by
  induction n generalizing w with
  | zero => simp
  | succ n ih => cases w with
    | nil => simp
    | cons c w => rw [List.replicate_succ, dot_cons, ih]; simp

theorem dot_append {u u' v v' : Bits} (h : u.length = v.length) : dot (u ++ u') (v ++ v') = (dot u v ^^ dot u' v') := by
  rw [dot, List.zipWith_append h, xorSum_append]; rfl

theorem unitVec_length (w i : Nat) : (unitVec w i).length = w := by simp [unitVec]

theorem unitVec_zero_succ (w : Nat) : unitVec (w + 1) 0 = true :: List.replicate w false := by
  simp only [unitVec, List.range_succ_eq_map, List.map_cons, List.map_map]
  congr 1
  rw [List.eq_replicate_iff]; simp

theorem unitVec_succ_succ (w i : Nat) : unitVec (w + 1) (i + 1) = false :: unitVec w i := by
  simp [unitVec, List.range_succ_eq_map, List.map_map, Function.comp_def]

/-- The product with a unit vector picks one element. -/
theorem dot_unitVec (w i : Nat) (v : Bits) (h : v.length = w) (hi : i < w) :
    dot (unitVec w i) v = v.getD i false := by
  induction w generalizing i v with
  | zero => omega
  | succ w ih =>
    cases v with
    | nil => simp at h
    | cons b v =>
      cases i with
      | zero => rw [unitVec_zero_succ, dot_cons, dot_replicate_false]; simp
      | succ i =>
        rw [unitVec_succ_succ, dot_cons, ih i v (by simpa using h) (by omega)]; simp

/-- `dot` as the XOR over the indices of the vectors. -/
theorem dot_eq_xorSum_range (u v : Bits) (a : Nat) (hu : u.length = a) (hv : v.length = a) :
    dot u v = xorSum ((List.range a).map fun i => u.getD i false && v.getD i false) := by
  unfold dot
  congr 1
  apply List.ext_getElem
  · simp [hu, hv]
  · intro i h1 h2
    have hiu : i < u.length := by simp at h1; omega
    have hiv : i < v.length := by simp at h1; omega
    simp [List.getElem?_eq_getElem hiu, List.getElem?_eq_getElem hiv]

@[simp] theorem xorBits_length (u v : Bits) : (xorBits u v).length = min u.length v.length := by simp [xorBits]

/-! ## Matrices -/

@[simp] theorem col_length (M : Matrix) (j : Nat) : (col M j).length = M.length := by simp [col]

@[simp] theorem vm_length (b : Nat) (v : Bits) (M : Matrix) : (vm b v M).length = b := by simp [vm]

@[simp] theorem mv_length (M : Matrix) (v : Bits) : (mv M v).length = M.length := by simp [mv]

theorem col_getD {M : Matrix} {k : Nat} (j : Nat) : (col M j).getD k false = entry M k j := by
  unfold col entry
  by_cases h : k < M.length
  · simp [List.getElem?_eq_getElem h]
  · simp [List.getElem?_eq_none (Nat.le_of_not_lt h)]

/-- MV is linear in its vector. -/
theorem mv_xorBits (M : Matrix) (u v : Bits) (h : u.length = v.length) :
    mv M (xorBits u v) = xorBits (mv M u) (mv M v) := by
  apply List.ext_getElem
  · simp
  · intro k h1 h2
    simp only [mv, List.getElem_map, xorBits, List.getElem_zipWith]
    have := dot_xorBits u v (M[k]'(by simpa using h1)) h
    rw [dot_comm] at this
    rw [dot_comm _ u, dot_comm _ v]; exact this

/-- MV of a unit vector is a column. -/
theorem mv_unitVec {M : Matrix} {a b j : Nat} (hM : hasShape a b M) (hj : j < b) : mv M (unitVec b j) = col M j := by
  refine List.map_congr_left fun row hrow => ?_
  rw [dot_comm, dot_unitVec b j row (hM.2 row hrow) hj]

theorem entry_eq_getElem {M : Matrix} {k j : Nat} (hk : k < M.length) : entry M k j = (M[k]).getD j false := by
  simp [entry, List.getElem?_eq_getElem hk]

theorem hasShape_getElem {M : Matrix} {a b k : Nat} (hM : hasShape a b M) (hk : k < M.length) : M[k].length = b :=
  hM.2 _ (List.getElem_mem hk)

theorem xorBits_false (n : Nat) (v : Bits) (h : v.length = n) : xorBits (List.replicate n false) v = v := by
  apply List.ext_getElem
  · simp [h]
  · intro i h1 h2; simp [xorBits]

theorem blocks_flatMap {α : Type} {n : Nat} (hn : 0 < n) {f : α → Bits} (hf : ∀ a, (f a).length = n) (l : List α) :
    blocks n (l.flatMap f) = l.map f := by
  induction l with
  | nil => simp [blocks_nil]
  | cons a l ih => rw [List.flatMap_cons, blocks_cons hn (hf a), ih, List.map_cons]

end Sys2Proof.Machine
end

