-- ==== Sys2Proof/Laws/State.lean ====
section
/-!
SUPPORT. What each update of the state leaves in each field.
-/

namespace Sys2Proof.Machine

@[simp] theorem emit_params (s : State) (r : Response) : (s.emit r).params = s.params := rfl
@[simp] theorem emit_cfg (s : State) (r : Response) : (s.emit r).cfg = s.cfg := rfl
@[simp] theorem emit_host (s : State) (r : Response) : (s.emit r).host = s.host := rfl
@[simp] theorem emit_responses (s : State) (r : Response) : (s.emit r).responses = s.responses ++ [r] := rfl
@[simp] theorem emit_nextCommand (s : State) (r : Response) : (s.emit r).nextCommand = s.nextCommand + 1 := rfl

@[simp] theorem install_params (s : State) (c : Configuration) : (s.install c).params = s.params := rfl
@[simp] theorem install_cfg (s : State) (c : Configuration) : (s.install c).cfg = some c := rfl
@[simp] theorem install_host (s : State) (c : Configuration) : (s.install c).host = s.host := rfl
@[simp] theorem install_responses (s : State) (c : Configuration) : (s.install c).responses = s.responses := rfl
@[simp] theorem install_nextCommand (s : State) (c : Configuration) : (s.install c).nextCommand = s.nextCommand := rfl

@[simp] theorem withHost_params (s : State) (es : List HostEvent) : (s.withHost es).params = s.params := rfl
@[simp] theorem withHost_cfg (s : State) (es : List HostEvent) : (s.withHost es).cfg = s.cfg := rfl
@[simp] theorem withHost_host (s : State) (es : List HostEvent) : (s.withHost es).host = es := rfl
@[simp] theorem withHost_responses (s : State) (es : List HostEvent) : (s.withHost es).responses = s.responses := rfl
@[simp] theorem withHost_nextCommand (s : State) (es : List HostEvent) :
    (s.withHost es).nextCommand = s.nextCommand := rfl

@[simp] theorem send_params (s : State) (es : List HostEvent) : (s.send es).params = s.params := rfl
@[simp] theorem send_cfg (s : State) (es : List HostEvent) : (s.send es).cfg = s.cfg := rfl
@[simp] theorem send_host (s : State) (es : List HostEvent) : (s.send es).host = s.host ++ es := rfl
@[simp] theorem send_responses (s : State) (es : List HostEvent) : (s.send es).responses = s.responses := rfl
@[simp] theorem send_nextCommand (s : State) (es : List HostEvent) : (s.send es).nextCommand = s.nextCommand := rfl

@[simp] theorem resetWith_params (p : Params) : (State.resetWith p).params = p := rfl
@[simp] theorem resetWith_cfg (p : Params) : (State.resetWith p).cfg = none := rfl
@[simp] theorem resetWith_host (p : Params) : (State.resetWith p).host = [] := rfl
@[simp] theorem resetWith_responses (p : Params) : (State.resetWith p).responses = [] := rfl
@[simp] theorem resetWith_nextCommand (p : Params) : (State.resetWith p).nextCommand = 0 := rfl

@[simp] theorem takeReset_params (s : State) (es : List HostEvent) : (takeReset s es).params = s.params := rfl
@[simp] theorem takeReset_cfg (s : State) (es : List HostEvent) : (takeReset s es).cfg = none := rfl
@[simp] theorem takeReset_host (s : State) (es : List HostEvent) : (takeReset s es).host = es := rfl
@[simp] theorem takeReset_responses (s : State) (es : List HostEvent) : (takeReset s es).responses = [] := rfl
@[simp] theorem takeReset_nextCommand (s : State) (es : List HostEvent) : (takeReset s es).nextCommand = 0 := rfl

@[simp] theorem response_rsp (st : Status) (x : Bits) : (response st x).rsp = st.word := rfl
@[simp] theorem response_payload (st : Status) (x : Bits) : (response st x).payload = x := rfl

@[simp] theorem construct_r (r : Nat) : (construct r).r = r := rfl
@[simp] theorem construct_H (r : Nat) : (construct r).H = hsys r := rfl
@[simp] theorem construct_G (r : Nat) : (construct r).G = gen r := rfl
@[simp] theorem construct_T (r : Nat) : (construct r).T = tab r := rfl
@[simp] theorem construct_N (r : Nat) : (construct r).N = codeN r := rfl
@[simp] theorem construct_M (r : Nat) : (construct r).M = codeM r := rfl

/-- CFG.VALID is set exactly when a configuration is in force. -/
theorem valid_iff (s : State) : s.valid = true ↔ ∃ c, s.cfg = some c := by
  simp [State.valid, Option.isSome_iff_exists]

end Sys2Proof.Machine
end

