-- ==== Sys2Proof/Laws/Construction.lean ====
section
/-!
SUPPORT. The column swaps, and what H, G and T hold for every parity order `r ≥ 2`.
-/

namespace Sys2Proof.Machine

/-! ## The column swaps -/

theorem succ_lt_two_pow {r : Nat} (h : 2 ≤ r) : r + 1 ≤ 2 ^ r - 1 ∧ r < 2 ^ r := by
  induction r, h using Nat.le_induction with
  | base => decide
  | succ r h ih => rw [Nat.pow_succ]; omega

/-- A swap's two positions meet another swap's only where both are the same swap. -/
theorem swap_positions_meet {r i i' : Nat} (hr : 2 ≤ r) (hi : i < r) (hi' : i' < r)
    (h : 2 ^ i - 1 = codeN r - 1 - i') : i = i' := by
  have hpos : 0 < 2 ^ i := Nat.two_pow_pos i
  have hn := succ_lt_two_pow hr
  unfold codeN at h
  have hsum : 2 ^ r = 2 ^ i + 1 + i' := by omega
  obtain ⟨q, rfl⟩ : ∃ q, r = q + 2 := ⟨r - 2, by omega⟩
  have hq : q < 2 ^ q := Nat.lt_two_pow_self
  have e2 : 2 ^ (q + 2) = 4 * 2 ^ q := by rw [Nat.pow_add]; omega
  by_cases hlast : i = q + 1
  · subst hlast
    have e1 : 2 ^ (q + 1) = 2 * 2 ^ q := by rw [Nat.pow_succ]; omega
    omega
  · have : 2 ^ i ≤ 2 ^ q := Nat.pow_le_pow_right (by omega) (by omega)
    omega

/-- What the column values are once the swaps of `S` are made. -/
structure Swapped (r : Nat) (S : List Nat) (cv : List Nat) : Prop where
  length_eq : cv.length = codeN r
  parity : ∀ i ∈ S, cv[codeN r - 1 - i]? = some (2 ^ i)
  power : ∀ i ∈ S, 2 ^ i - 1 ≠ codeN r - 1 - i → cv[2 ^ i - 1]? = some (codeN r - i)
  other : ∀ j, j < codeN r → (∀ i ∈ S, j ≠ codeN r - 1 - i) → (∀ i ∈ S, j ≠ 2 ^ i - 1) → cv[j]? = some (j + 1)

theorem swapEntries_getElem? {cv : List Nat} {a b : Nat} (ha : a < cv.length) (hb : b < cv.length) (j : Nat) :
    (swapEntries cv a b)[j]? = if j = b then cv[a]? else if j = a then cv[b]? else cv[j]? := by
  unfold swapEntries
  rw [List.getElem?_set]
  by_cases h1 : b = j
  · subst h1; simp [hb, ha]
  · have h1' : ¬ j = b := fun e => h1 e.symm
    rw [if_neg h1, if_neg h1', List.getElem?_set]
    by_cases h2 : a = j
    · subst h2; simp [ha, hb]
    · have h2' : ¬ j = a := fun e => h2 e.symm
      rw [if_neg h2, if_neg h2']

theorem swap_bounds {r i : Nat} (hr : 2 ≤ r) (hi : i < r) : 2 ^ i - 1 < codeN r ∧ codeN r - 1 - i < codeN r := by
  have : 2 ^ i < 2 ^ r := Nat.pow_lt_pow_right (by omega) hi
  have := succ_lt_two_pow hr
  have : 0 < 2 ^ i := Nat.two_pow_pos i
  unfold codeN; omega

theorem swapped_initial (r : Nat) : Swapped r [] (initialColvals r) where
  length_eq := by simp [initialColvals]
  parity := by simp
  power := by simp
  other := fun j hj _ _ => by simp [initialColvals, hj]

theorem Swapped.step {r i : Nat} {S cv : List Nat} (h : Swapped r S cv) (hr : 2 ≤ r) (hi : i < r) (hS : ∀ k ∈ S, k < r)
    (hfresh : i ∉ S) : Swapped r (i :: S) (swapStep r cv i) := by
  obtain ⟨hba, hbb⟩ := swap_bounds hr hi
  have hget := swapEntries_getElem? (cv := cv) (a := 2 ^ i - 1) (b := codeN r - 1 - i)
    (by rw [h.length_eq]; exact hba) (by rw [h.length_eq]; exact hbb)
  have hpos : 0 < 2 ^ i := Nat.two_pow_pos i
  have hA : cv[2 ^ i - 1]? = some (2 ^ i) := by
    rw [h.other _ hba]
    · congr 1; omega
    · intro k hk e; exact hfresh (swap_positions_meet hr hi (hS k hk) e ▸ hk)
    · intro k hk e
      have hk0 : 0 < 2 ^ k := Nat.two_pow_pos k
      have : i = k := Nat.pow_right_injective (le_refl 2) (by show 2 ^ i = 2 ^ k; omega)
      exact hfresh (this ▸ hk)
  have hB : cv[codeN r - 1 - i]? = some (codeN r - i) := by
    have hn := succ_lt_two_pow hr
    rw [h.other _ hbb]
    · congr 1; unfold codeN; omega
    · intro k hk e
      have := hS k hk
      have : i = k := by unfold codeN at e; omega
      exact hfresh (this ▸ hk)
    · intro k hk e; exact hfresh (swap_positions_meet hr (hS k hk) hi e.symm ▸ hk)
  refine ⟨by simp [swapStep, swapEntries, h.length_eq], ?_, ?_, ?_⟩
  · intro k hk
    rw [swapStep, hget]
    rcases List.mem_cons.mp hk with rfl | hk
    · rw [if_pos rfl, hA]
    · have hkr := hS k hk
      have hn := succ_lt_two_pow hr
      have hki : k ≠ i := fun e => hfresh (e ▸ hk)
      rw [if_neg (by unfold codeN; omega), if_neg, h.parity k hk]
      intro e; exact hki (swap_positions_meet hr hi hkr e.symm).symm
  · intro k hk hne
    rw [swapStep, hget]
    rcases List.mem_cons.mp hk with rfl | hk
    · rw [if_neg hne, if_pos rfl, hB]
    · have hkr := hS k hk
      have hki : k ≠ i := fun e => hfresh (e ▸ hk)
      rw [if_neg (fun e => hki (swap_positions_meet hr hkr hi e)), if_neg, h.power k hk hne]
      intro e
      have h1 : 0 < 2 ^ k := Nat.two_pow_pos k
      exact hki (Nat.pow_right_injective (le_refl 2) (by show 2 ^ k = 2 ^ i; omega))
  · intro j hj h1 h2
    rw [swapStep, hget, if_neg (h1 i List.mem_cons_self), if_neg (h2 i List.mem_cons_self)]
    exact h.other j hj (fun k hk => h1 k (List.mem_cons_of_mem _ hk)) (fun k hk => h2 k (List.mem_cons_of_mem _ hk))

theorem Swapped.congr {r : Nat} {S S' cv : List Nat} (h : Swapped r S cv) (hSS : ∀ i, i ∈ S ↔ i ∈ S') :
    Swapped r S' cv :=
  ⟨h.length_eq, fun i hi => h.parity i ((hSS i).mpr hi), fun i hi => h.power i ((hSS i).mpr hi),
    fun j hj h1 h2 => h.other j hj (fun i hi => h1 i ((hSS i).mp hi)) (fun i hi => h2 i ((hSS i).mp hi))⟩

theorem swapped_foldl {r : Nat} (hr : 2 ≤ r) : ∀ (order S cv : List Nat), Swapped r S cv → (∀ k ∈ S, k < r) →
    (∀ k ∈ order, k < r) → order.Nodup → (∀ k ∈ order, k ∉ S) →
    Swapped r (order ++ S) (order.foldl (swapStep r) cv)
  | [], _, _, h, _, _, _, _ => h
  | i :: order, S, cv, h, hS, ho, hnd, hdis => by
    have hi := ho i List.mem_cons_self
    have hstep := h.step hr hi hS (hdis i List.mem_cons_self)
    rw [List.nodup_cons] at hnd
    have := swapped_foldl hr order (i :: S) _ hstep
      (fun k hk => by rcases List.mem_cons.mp hk with rfl | hk; exacts [hi, hS k hk])
      (fun k hk => ho k (List.mem_cons_of_mem _ hk)) hnd.2
      (fun k hk hk' => by
        rcases List.mem_cons.mp hk' with rfl | hk'
        · exact hnd.1 hk
        · exact hdis k (List.mem_cons_of_mem _ hk) hk')
    exact this.congr fun k => by simp [or_left_comm]

theorem swapped_colvalsAfter {r : Nat} {order : List Nat} (hr : 2 ≤ r) (ho : ∀ k ∈ order, k < r) (hnd : order.Nodup) :
    Swapped r order (colvalsAfter r order) := by
  simpa [colvalsAfter] using swapped_foldl hr order [] _ (swapped_initial r) (by simp) ho hnd (by simp)

theorem swapped_colvals {r : Nat} (hr : 2 ≤ r) : Swapped r (List.range r) (colvals r) :=
  swapped_colvalsAfter hr (fun _ hk => List.mem_range.mp hk) List.nodup_range

theorem Swapped.unique {r : Nat} {S S' cv cv' : List Nat} (h : Swapped r S cv) (h' : Swapped r S' cv')
    (hSS : ∀ i, i ∈ S ↔ i ∈ S') : cv = cv' := by
  have h' := h'.congr (fun i => (hSS i).symm)
  apply List.ext_getElem?
  intro j
  by_cases hj : j < codeN r
  · by_cases h1 : ∃ i ∈ S, j = codeN r - 1 - i
    · obtain ⟨i, hi, rfl⟩ := h1; rw [h.parity i hi, h'.parity i hi]
    · by_cases h2 : ∃ i ∈ S, j = 2 ^ i - 1
      · obtain ⟨i, hi, rfl⟩ := h2
        have hne : 2 ^ i - 1 ≠ codeN r - 1 - i := fun e => h1 ⟨i, hi, e⟩
        rw [h.power i hi hne, h'.power i hi hne]
      · push Not at h1 h2
        rw [h.other j hj h1 h2, h'.other j hj h1 h2]
  · rw [List.getElem?_eq_none (by rw [h.length_eq]; omega), List.getElem?_eq_none (by rw [h'.length_eq]; omega)]

/-! ## The parity-check matrix -/

theorem col_matrixOfColvals (r : Nat) (cv : List Nat) (j : Nat) :
    col (matrixOfColvals r cv) j = be r (cv.getD j 0) := by
  unfold col matrixOfColvals be
  rw [List.map_map]
  refine List.map_congr_left fun k _ => ?_
  simp only [Function.comp]
  by_cases h : j < cv.length
  · simp [List.getElem?_eq_getElem h]
  · simp [List.getElem?_eq_none (Nat.le_of_not_lt h)]

theorem hasShape_matrixOfColvals (r : Nat) (cv : List Nat) : hasShape r cv.length (matrixOfColvals r cv) := by
  constructor
  · simp [matrixOfColvals]
  · intro row h
    obtain ⟨k, _, rfl⟩ := List.mem_map.mp h
    simp

theorem col_hsys (r j : Nat) : col (hsys r) j = be r ((colvals r).getD j 0) := col_matrixOfColvals r _ j

theorem hasShape_hsys {r : Nat} (hr : 2 ≤ r) : hasShape r (codeN r) (hsys r) := by
  have := hasShape_matrixOfColvals r (colvals r)
  rwa [(swapped_colvals hr).length_eq] at this

theorem colvals_range {r : Nat} (hr : 2 ≤ r) {j : Nat} (hj : j < codeN r) :
    1 ≤ (colvals r).getD j 0 ∧ (colvals r).getD j 0 ≤ codeN r := by
  have h := swapped_colvals hr
  have hn := succ_lt_two_pow hr
  rw [List.getD_eq_getElem?_getD]
  by_cases h1 : ∃ i ∈ List.range r, j = codeN r - 1 - i
  · obtain ⟨i, hi, rfl⟩ := h1
    rw [h.parity i hi]
    have hir := List.mem_range.mp hi
    have : 2 ^ i < 2 ^ r := Nat.pow_lt_pow_right (by omega) hir
    have := Nat.two_pow_pos i
    simp only [Option.getD_some]; unfold codeN; omega
  · by_cases h2 : ∃ i ∈ List.range r, j = 2 ^ i - 1
    · obtain ⟨i, hi, rfl⟩ := h2
      have hir := List.mem_range.mp hi
      rw [h.power i hi (fun e => h1 ⟨i, hi, e⟩)]
      simp only [Option.getD_some]; unfold codeN; omega
    · push Not at h1 h2
      rw [h.other j hj h1 h2]
      simp only [Option.getD_some]; omega

theorem colval_hsys {r : Nat} (hr : 2 ≤ r) {j : Nat} (hj : j < codeN r) :
    colval (hsys r) j = (colvals r).getD j 0 := by
  have h := colvals_range hr hj
  rw [colval, col_hsys, intBe_be]
  have := succ_lt_two_pow hr
  have h2 := h.2
  unfold codeN at h2
  omega

theorem colvals_surj {r : Nat} (hr : 2 ≤ r) {v : Nat} (h1 : 1 ≤ v) (h2 : v ≤ codeN r) :
    ∃ j, j < codeN r ∧ (colvals r).getD j 0 = v := by
  have h := swapped_colvals hr
  have hn := succ_lt_two_pow hr
  have key : ∀ j, (colvals r)[j]? = some v → ∃ j, j < codeN r ∧ (colvals r).getD j 0 = v := fun j hj => by
    obtain ⟨hlt, _⟩ := List.getElem?_eq_some_iff.mp hj
    exact ⟨j, by rwa [h.length_eq] at hlt, by rw [List.getD_eq_getElem?_getD, hj]; rfl⟩
  by_cases hp : ∃ i, v = 2 ^ i
  · obtain ⟨i, rfl⟩ := hp
    have hir : i < r := by
      by_contra hge
      have : 2 ^ r ≤ 2 ^ i := Nat.pow_le_pow_right (by omega) (by omega)
      unfold codeN at h2; omega
    exact key _ (h.parity i (List.mem_range.mpr hir))
  · by_cases hs : ∃ i, i < r ∧ v = codeN r - i
    · obtain ⟨i, hir, rfl⟩ := hs
      refine key _ (h.power i (List.mem_range.mpr hir) fun e => hp ⟨i, ?_⟩)
      have := Nat.two_pow_pos i
      unfold codeN at *; omega
    · push Not at hp hs
      have hv : v - 1 + 1 = v := by omega
      refine key (v - 1) (hv ▸ h.other (v - 1) (by omega) (fun i hi e => ?_) (fun i hi e => ?_))
      · exact hs i (List.mem_range.mp hi) (by have := List.mem_range.mp hi; unfold codeN at *; omega)
      · exact hp i (by have := Nat.two_pow_pos i; omega)

theorem colvals_perm {r : Nat} (hr : 2 ≤ r) : (colvals r).Perm ((List.range (codeN r)).map (· + 1)) := by
  have hnd : ((List.range (codeN r)).map (· + 1)).Nodup :=
    List.Nodup.map (fun a b h => by simpa using h) List.nodup_range
  refine ((List.subperm_of_subset hnd fun v hv => ?_).perm_of_length_le ?_).symm
  · obtain ⟨k, hk, rfl⟩ := List.mem_map.mp hv
    obtain ⟨j, hj, e⟩ := colvals_surj hr (v := k + 1) (by omega) (by have := List.mem_range.mp hk; omega)
    have hjl : j < (colvals r).length := by rw [(swapped_colvals hr).length_eq]; exact hj
    rw [← e, List.getD_eq_getElem?_getD, List.getElem?_eq_getElem hjl]
    exact List.getElem_mem hjl
  · simp [(swapped_colvals hr).length_eq]

theorem colvals_inj {r : Nat} (hr : 2 ≤ r) {j j' : Nat} (hj : j < codeN r) (hj' : j' < codeN r)
    (h : (colvals r).getD j 0 = (colvals r).getD j' 0) : j = j' := by
  have hl := (swapped_colvals hr).length_eq
  have hnd : (colvals r).Nodup := (colvals_perm hr).nodup_iff.mpr
    (List.Nodup.map (fun a b h => by simpa using h) List.nodup_range)
  have hjl : j < (colvals r).length := by omega
  have hjl' : j' < (colvals r).length := by omega
  rw [List.getD_eq_getElem?_getD, List.getD_eq_getElem?_getD, List.getElem?_eq_getElem hjl,
    List.getElem?_eq_getElem hjl'] at h
  exact (List.Nodup.getElem_inj_iff hnd).mp h

/-! ## The syndrome table -/
theorem tab_fold (r : Nat) (f : Nat → Nat) (hf : ∀ j, j < codeN r → f j < 2 ^ r)
    (hinj : ∀ j j', j < codeN r → j' < codeN r → f j = f j' → j = j') (k : Nat) (hk : k ≤ codeN r) :
    let T := (List.range k).foldl (fun T j => T.set (f j) (some j)) (List.replicate (2 ^ r) (none : Option Nat))
    T.length = 2 ^ r ∧ (∀ j, j < k → T[f j]? = some (some j)) ∧
    ∀ v, v < 2 ^ r → (∀ j, j < k → f j ≠ v) → T[v]? = some none := by
  induction k with
  | zero => simp [List.getElem?_replicate]
  | succ k ih =>
    obtain ⟨hl, hs, ho⟩ := ih (by omega)
    simp only [List.range_succ, List.foldl_append, List.foldl_cons, List.foldl_nil]
    refine ⟨by simp [hl], fun j hj => ?_, fun v hv hne => ?_⟩
    · rw [List.getElem?_set, hl]
      by_cases e : f k = f j
      · have := hinj k j (by omega) (by omega) e
        subst this; simp [hf k (by omega)]
      · rw [if_neg e]
        have : j ≠ k := fun h => e (by rw [h])
        exact hs j (by omega)
    · rw [List.getElem?_set, if_neg (hne k (by omega))]
      exact ho v hv fun j hj => hne j (by omega)

theorem tab_spec {r : Nat} (hr : 2 ≤ r) : (tab r).length = 2 ^ r ∧
    (∀ j, j < codeN r → (tab r)[(colvals r).getD j 0]? = some (some j)) ∧ (tab r)[0]? = some none := by
  have hlt : ∀ j, j < codeN r → colval (hsys r) j < 2 ^ r := fun j hj => by
    rw [colval_hsys hr hj]
    have h2 := (colvals_range hr hj).2
    have := succ_lt_two_pow hr
    unfold codeN at h2; omega
  obtain ⟨hl, hs, ho⟩ := tab_fold r (colval (hsys r)) hlt
    (fun j j' hj hj' h => colvals_inj hr hj hj' (by rwa [colval_hsys hr hj, colval_hsys hr hj'] at h))
    (codeN r) (Nat.le_refl _)
  refine ⟨hl, fun j hj => ?_, ho 0 (Nat.two_pow_pos r) fun j hj e => ?_⟩
  · rw [← colval_hsys hr hj]; exact hs j hj
  · rw [colval_hsys hr hj] at e
    have := (colvals_range hr hj).1
    omega

theorem tab_hits {r : Nat} (hr : 2 ≤ r) {v : Nat} (h1 : 1 ≤ v) (h2 : v ≤ codeN r) :
    ∃ j, j < codeN r ∧ (colvals r).getD j 0 = v ∧ (tab r)[v]? = some (some j) := by
  obtain ⟨j, hj, rfl⟩ := colvals_surj hr h1 h2
  exact ⟨j, hj, rfl, (tab_spec hr).2.1 j hj⟩

/-! ## The generator matrix -/
theorem codeM_add {r : Nat} (hr : 2 ≤ r) : codeM r + r = codeN r := by
  have := succ_lt_two_pow hr
  unfold codeM codeN; omega

theorem hsys_row_length {r : Nat} (hr : 2 ≤ r) {row : Bits} (h : row ∈ hsys r) : row.length = codeN r :=
  (hasShape_hsys hr).2 row h

theorem gen_rows (r : Nat) : gen r = (List.range (codeM r)).map fun i =>
    unitVec (codeM r) i ++ (hsys r).map fun row => (row.take (codeM r)).getD i false := by
  unfold gen genOf concatCols identity transpose
  rw [List.zipWith_map, List.zipWith_self]
  refine List.map_congr_left fun i _ => ?_
  simp [col, columns, slice, List.map_map, Function.comp_def]

theorem hasShape_gen {r : Nat} (hr : 2 ≤ r) : hasShape (codeM r) (codeN r) (gen r) := by
  rw [gen_rows]
  constructor
  · simp
  · intro row h
    obtain ⟨i, _, rfl⟩ := List.mem_map.mp h
    rw [List.length_append, unitVec_length, List.length_map, (hasShape_hsys hr).1, codeM_add hr]

theorem unitVec_comm (w i : Nat) : unitVec w i = (List.range w).map fun j => decide (i = j) := by
  refine List.map_congr_left fun j _ => ?_
  congr 1; exact propext eq_comm

theorem col_gen_data {r j : Nat} (hj : j < codeM r) : col (gen r) j = unitVec (codeM r) j := by
  rw [gen_rows, col, List.map_map, unitVec]
  refine List.map_congr_left fun i _ => ?_
  simp only [Function.comp]
  rw [List.getD_append _ _ _ _ (by rw [unitVec_length]; exact hj)]
  simp [unitVec, hj]
  exact eq_comm

theorem col_gen_parity {r k : Nat} (hr : 2 ≤ r) (hk : k < r) :
    col (gen r) (codeM r + k) = ((hsys r).getD k []).take (codeM r) := by
  have hkl : k < (hsys r).length := by rw [(hasShape_hsys hr).1]; exact hk
  have hrow : ((hsys r)[k]).length = codeN r := hsys_row_length hr (List.getElem_mem hkl)
  have hmn := codeM_add hr
  rw [gen_rows, col, List.map_map, List.getD_eq_getElem?_getD, List.getElem?_eq_getElem hkl]
  apply List.ext_getElem
  · simp; omega
  · intro i h1 h2
    have hi : i < codeM r := by simpa using h1
    simp only [List.getElem_map, List.getElem_range, Function.comp, Option.getD_some, List.getElem_take]
    rw [List.getD_append_right _ _ _ _ (by rw [unitVec_length]; omega), unitVec_length, Nat.add_sub_cancel_left]
    simp [List.getElem?_eq_getElem hkl, hi]
    rw [List.getElem?_eq_getElem (by omega)]; rfl

/-- The product with G in systematic form (42_hamming_encoder.md R122). -/
theorem vm_gen {r : Nat} (hr : 2 ≤ r) {d : Bits} (hd : d.length = codeM r) :
    vm (codeN r) d (gen r) = d ++ (hsys r).map fun row => dot d (row.take (codeM r)) := by
  have hmn := codeM_add hr
  apply List.ext_getElem
  · simp [hd, (hasShape_hsys hr).1, hmn]
  · intro j h1 h2
    have hj : j < codeN r := by simpa using h1
    simp only [vm, List.getElem_map, List.getElem_range]
    by_cases hjm : j < codeM r
    · rw [col_gen_data hjm, dot_comm, dot_unitVec _ _ _ hd hjm, List.getElem_append_left (by omega),
        List.getD_eq_getElem?_getD, List.getElem?_eq_getElem (by omega)]; rfl
    · obtain ⟨k, rfl⟩ : ∃ k, j = codeM r + k := ⟨j - codeM r, by omega⟩
      have hk : k < r := by omega
      have hkl : k < (hsys r).length := by rw [(hasShape_hsys hr).1]; exact hk
      rw [col_gen_parity hr hk, List.getElem_append_right (by omega)]
      simp [hd, List.getElem?_eq_getElem hkl]

theorem hsys_row_drop {r k : Nat} (hr : 2 ≤ r) (hk : k < (hsys r).length) :
    ((hsys r)[k]).drop (codeM r) = unitVec r k := by
  have hmn := codeM_add hr
  have hkr : k < r := by rwa [(hasShape_hsys hr).1] at hk
  have hrow : ((hsys r)[k]).length = codeN r := hsys_row_length hr (List.getElem_mem hk)
  apply List.ext_getElem
  · rw [List.length_drop, hrow, unitVec_length]; omega
  · intro k' h1 h2
    have hk' : k' < r := by rwa [unitVec_length] at h2
    rw [List.getElem_drop]
    have hcol : col (hsys r) (codeM r + k') = unitVec r k' := by
      have hp := (swapped_colvals hr).parity (r - 1 - k') (List.mem_range.mpr (by omega))
      rw [show codeN r - 1 - (r - 1 - k') = codeM r + k' by omega] at hp
      rw [col_hsys, List.getD_eq_getElem?_getD, hp, Option.getD_some, be_two_pow (by omega)]
      congr 1; omega
    have he := congrArg (fun l => l.getD k false) hcol
    simp only [col_getD, entry_eq_getElem hk] at he
    rw [List.getD_eq_getElem?_getD, List.getElem?_eq_getElem (by omega)] at he
    simp only [Option.getD_some] at he
    rw [he]
    simp [unitVec, hkr]
    exact eq_comm

end Sys2Proof.Machine
end

