-- ==== Sys2Proof/Laws/Ops.lean ====
section
/-!
SUPPORT. What each shared operation and each meaning can answer, said once; the proofs cite these and unfold nothing.
-/

namespace Sys2Proof.Machine

/-! ## Ending a command -/

theorem respond_next {st : Status} {x : Bits} {s t : State} :
    respond st x s = .next t ↔ t = s.emit (response st x) := by
  constructor
  · intro h; injection h with h; exact h.symm
  · rintro rfl; rfl

theorem raise_next {e : Status} {s t : State} : raise e s = .next t ↔ t = s.emit (response e []) :=
  respond_next

/-- A response CORE builds is legal when an error carries no payload. -/
theorem response_legal {st : Status} {x : Bits} (h : st = .ok ∨ x = []) : (response st x).Legal where
  has_status := ⟨st, rfl⟩
  error_empty := fun hne => by
    rcases h with rfl | rfl
    · exact absurd rfl hne
    · rfl

/-! ## The meanings -/

/-- Everything NEW can do. -/
theorem execNew_cases (r : Nat) (s : State) :
    ((r < 2 ∨ s.params.rmax < r) ∧ execNew r s = .next (s.emit (response .invalidParameterError []))) ∨
    (2 ≤ r ∧ r ≤ s.params.rmax ∧ execNew r s = .next ((s.install (construct r)).emit (response .ok []))) := by
  unfold execNew
  split
  · exact .inl ⟨.inl ‹_›, rfl⟩
  · split
    · exact .inl ⟨.inr ‹_›, rfl⟩
    · exact .inr ⟨by omega, by omega, rfl⟩

/-- Everything ENC can do. -/
theorem execEnc_cases (x : Bits) (s : State) :
    (s.cfg = none ∧ execEnc x s = .next (s.emit (response .notConfiguredError []))) ∨
    ∃ c, s.cfg = some c ∧
      ((x.length % c.M ≠ 0 ∧ execEnc x s = .next (s.emit (response .invalidLengthError []))) ∨
       (x.length % c.M = 0 ∧ execEnc x s = .next (s.emit (response .ok (encodeSeq c x))))) := by
  unfold execEnc
  cases hc : s.cfg with
  | none => exact .inl ⟨rfl, rfl⟩
  | some c =>
    refine .inr ⟨c, rfl, ?_⟩
    by_cases hl : x.length % c.M = 0
    · exact .inr ⟨hl, by simp [hl, respond]⟩
    · exact .inl ⟨hl, by simp [hl, raise, respond]⟩

/-- Everything DEC can do. -/
theorem execDec_cases (x : Bits) (s : State) :
    (s.cfg = none ∧ execDec x s = .next (s.emit (response .notConfiguredError []))) ∨
    ∃ c, s.cfg = some c ∧
      ((x.length % c.N ≠ 0 ∧ execDec x s = .next (s.emit (response .invalidLengthError []))) ∨
       (x.length % c.N = 0 ∧ ∃ out, decodeSeq c x = some out ∧ execDec x s = .next (s.emit (response .ok out))) ∨
       (x.length % c.N = 0 ∧ decodeSeq c x = none ∧ execDec x s = .fault .absentTableEntry)) := by
  unfold execDec
  cases hc : s.cfg with
  | none => exact .inl ⟨rfl, rfl⟩
  | some c =>
    refine .inr ⟨c, rfl, ?_⟩
    by_cases hl : x.length % c.N = 0
    · cases hd : decodeSeq c x with
      | none => exact .inr (.inr ⟨hl, rfl, by simp [hl, hd]⟩)
      | some out => exact .inr (.inl ⟨hl, out, rfl, by simp [hl, hd, respond]⟩)
    · exact .inl ⟨hl, by simp [hl, raise, respond]⟩

/-- No meaning refuses. -/
theorem exec_ne_refused (i : Instr) (s : State) (why : Refusal) : exec i s ≠ .refused why := by
  cases i with
  | new r =>
    rcases execNew_cases r s with ⟨_, h⟩ | ⟨_, _, h⟩ <;> simp [exec, h]
  | enc x =>
    rcases execEnc_cases x s with ⟨_, h⟩ | ⟨c, _, ⟨_, h⟩ | ⟨_, h⟩⟩ <;> simp [exec, h]
  | dec x =>
    rcases execDec_cases x s with ⟨_, h⟩ | ⟨c, _, ⟨_, h⟩ | ⟨_, out, _, h⟩ | ⟨_, _, h⟩⟩ <;> simp [exec, h]

/-! ## Accepting an event -/

/-- A payload longer than LMAX, in terms of LMAX. -/
theorem overLong_iff (p : Params) (len : Nat) :
    p.overLong len = true ↔ ∃ bound, p.lmax = some bound ∧ bound < len := by
  unfold Params.overLong
  cases p.lmax <;> simp

theorem fetch_waiting {s : State} (h : s.host = []) : fetch s = .waiting := by
  simp [fetch, h]

theorem fetch_reset {s : State} {rest : List HostEvent} (h : s.host = .reset :: rest) :
    fetch s = .afterReset (takeReset s rest) := by
  simp [fetch, h]

theorem fetch_resetDuring {s : State} {c : Command} {rest : List HostEvent} (h : s.host = .resetDuring c :: rest) :
    fetch s = if s.params.overLong c.payload.length then .tooLong c.payload.length
      else .afterReset (takeReset s rest) := by
  simp [fetch, h]

theorem fetch_command {s : State} {c : Command} {rest : List HostEvent} (h : s.host = .command c :: rest) :
    fetch s = accept c (s.withHost rest) := by
  simp [fetch, h]

theorem accept_tooLong {s : State} {c : Command} (h : s.params.overLong c.payload.length = true) :
    accept c s = .tooLong c.payload.length := by
  simp [accept, h]

theorem accept_illegal {s : State} {c : Command} {why : IllegalReason}
    (h : s.params.overLong c.payload.length = false) (hd : decode c = .error why) : accept c s = .illegal why s := by
  simp [accept, h, hd]

theorem accept_perform {s : State} {c : Command} {i : Instr}
    (h : s.params.overLong c.payload.length = false) (hd : decode c = .ok i) : accept c s = .perform i s := by
  simp [accept, h, hd]

/-- Everything a step does with a command whose payload LMAX admits. -/
theorem step_command {s : State} {c : Command} {rest : List HostEvent} (h : s.host = .command c :: rest)
    (hl : s.params.overLong c.payload.length = false) :
    step s = match decode c with
      | .ok i => exec i (s.withHost rest)
      | .error _ => .next ((s.withHost rest).emit (response .illegalCommandError [])) := by
  have hl' : (s.withHost rest).params.overLong c.payload.length = false := hl
  cases hd : decode c with
  | ok i => simp only [step, fetch_command h, accept_perform hl' hd]
  | error why => simp only [step, fetch_command h, accept_illegal hl' hd, raise, respond]

/-- Everything a step that goes on can do: wait, take a reset, answer an illegal command, or perform an instruction. -/
theorem step_next_cases {s t : State} (h : step s = .next t) :
    (s.host = [] ∧ t = s) ∨
    (∃ e rest, s.host = e :: rest ∧ (e = .reset ∨ ∃ c, e = .resetDuring c) ∧ t = takeReset s rest) ∨
    ∃ c rest, s.host = .command c :: rest ∧ s.params.overLong c.payload.length = false ∧
     ((∃ why, decode c = .error why ∧ t = (s.withHost rest).emit (response .illegalCommandError [])) ∨
      ∃ i, decode c = .ok i ∧ exec i (s.withHost rest) = .next t) := by
  rcases hh : s.host with _ | ⟨e, rest⟩
  · rw [step, fetch_waiting hh] at h; injection h with h; exact .inl ⟨rfl, h.symm⟩
  · cases e with
    | reset => rw [step, fetch_reset hh] at h; injection h with h; exact .inr (.inl ⟨_, _, rfl, .inl rfl, h.symm⟩)
    | resetDuring c =>
      rw [step, fetch_resetDuring hh] at h
      split at h
      all_goals (rename_i hf; split at hf <;> cases hf)
      · injection h with h;  exact .inr (.inl ⟨_, _, rfl, .inr ⟨_, rfl⟩, h.symm⟩)
      · cases h
    | command c =>
      refine .inr (.inr ⟨c, rest, rfl, ?_⟩)
      cases ho : s.params.overLong c.payload.length with
      | true =>
        have ho' : (s.withHost rest).params.overLong c.payload.length = true := ho
        rw [step, fetch_command hh, accept_tooLong ho'] at h; cases h
      | false =>
        refine ⟨rfl, ?_⟩
        rw [step_command hh ho] at h
        cases hd : decode c with
        | ok i => rw [hd] at h; exact .inr ⟨i, rfl, h⟩
        | error w => rw [hd] at h; injection h with h; exact .inl ⟨w, rfl, h.symm⟩

end Sys2Proof.Machine
end

