-- ==== Sys2Proof/Laws/Decoder.lean ====
section
/-!
SUPPORT. The encoder, the decoder's blocks, and ENC and DEC with a configuration in force.
-/

namespace Sys2Proof.Machine

/-! ## Legal configurations -/

/-- A legal configuration is the one its parity order builds. -/
theorem exists_construct {c : Configuration} {p : Params} (h : c.Legal p) :
    ∃ r, 2 ≤ r ∧ r ≤ p.rmax ∧ c = construct r := by
  obtain ⟨r, H, G, T⟩ := c
  obtain ⟨h2, hle, hH, hG, hT⟩ := h
  simp only at h2 hle hH hG hT
  exact ⟨r, h2, hle, by simp [construct, hH, hG, hT]⟩

theorem legal_construct {r : Nat} {p : Params} (h : 2 ≤ r) (h' : r ≤ p.rmax) : (construct r).Legal p :=
  ⟨h, h', rfl, rfl, rfl⟩

theorem encodeBlock_length (c : Configuration) (d : Bits) : (encodeBlock c d).length = c.N := by
  simp [encodeBlock, gf2MatrixMult]

/-! ## The table at a column -/

theorem col_hsys_inj {r : Nat} (hr : 2 ≤ r) {j j' : Nat} (hj : j < codeN r) (hj' : j' < codeN r)
    (h : col (hsys r) j = col (hsys r) j') : j = j' := by
  have := congrArg intBe h
  exact colvals_inj hr hj hj' (by rwa [← colval_hsys hr hj, ← colval_hsys hr hj'])

theorem intBe_col_ne_zero {r : Nat} (hr : 2 ≤ r) {q : Nat} (hq : q < codeN r) : intBe (col (hsys r) q) ≠ 0 := by
  have h1 := (colvals_range hr hq).1
  have h2 := colval_hsys hr hq
  unfold colval at h2; omega

/-! ## decode_block -/

theorem decodeBlock_zero {r : Nat} {b : Bits} (h : intBe (mv (hsys r) b) = 0) :
    decodeBlock (construct r) b = some (b.take (codeM r)) := by
  simp [decodeBlock, correct, syndrome, gf2MatrixMult, h, slice_zero]

/-- decode_block where LOOKUP hits. -/
theorem decodeBlock_hit {c : Configuration} {b : Bits} {q : Nat} (h : intBe (mv c.H b) ≠ 0)
    (hl : lookup c.T (mv c.H b) = some { hit := true, pos := q }) :
    decodeBlock c b = some ((flipBit b q).take c.M) := by
  simp [decodeBlock, correct, syndrome, gf2MatrixMult, h, hl, slice_zero]

/-! ## decode -/

theorem decodeBlocks_append (c : Configuration) (bs bs' : List Bits) (o o' : Bits)
    (h : decodeBlocks c bs = some o) (h' : decodeBlocks c bs' = some o') :
    decodeBlocks c (bs ++ bs') = some (o ++ o') := by
  induction bs generalizing o with
  | nil => simp [decodeBlocks] at h; subst h; simpa using h'
  | cons b bs ih =>
    simp only [decodeBlocks] at h
    split at h
    · rename_i d out hd ho
      injection h with h; subst h
      simp only [List.cons_append, decodeBlocks, hd, ih out ho, List.append_assoc]
    · simp at h

theorem decodeBlocks_map {c : Configuration} {α : Type} (l : List α) (f : α → Bits) (g : α → Bits)
    (h : ∀ a ∈ l, decodeBlock c (f a) = some (g a)) : decodeBlocks c (l.map f) = some (l.flatMap g) := by
  induction l with
  | nil => rfl
  | cons a l ih =>
    simp only [List.map_cons, decodeBlocks, h a List.mem_cons_self, List.flatMap_cons,
      ih fun a ha => h a (List.mem_cons_of_mem _ ha)]

/-- decode block by block. -/
theorem decodeBlocks_getElem {c : Configuration} (bs : List Bits) (ds : List Bits) (hl : bs.length = ds.length)
    (h : ∀ b (h1 : b < bs.length) (h2 : b < ds.length), decodeBlock c bs[b] = some ds[b]) :
    decodeBlocks c bs = some ds.flatten := by
  induction bs generalizing ds with
  | nil => cases ds with
    | nil => rfl
    | cons => simp at hl
  | cons b bs ih =>
    cases ds with
    | nil => simp at hl
    | cons d ds =>
      have h0 := h 0 (by simp) (by simp)
      have := ih ds (by simpa using hl) fun k h1 h2 => by
        have := h (k + 1) (by simpa using h1) (by simpa using h2)
        simpa using this
      simp at h0
      simp [decodeBlocks, h0, this]

/-! ## ENC and DEC with a configuration in force -/

theorem execDec_ok {s : State} {c : Configuration} {x out : Bits} (hc : s.cfg = some c) (hl : x.length % c.N = 0)
    (ho : decodeSeq c x = some out) : execDec x s = .next (s.emit (response .ok out)) := by
  rcases execDec_cases x s with ⟨h, _⟩ | ⟨c', hc', ⟨h, _⟩ | ⟨_, o, h, e⟩ | ⟨_, h, _⟩⟩
  · rw [hc] at h; cases h
  · rw [hc] at hc'; cases hc'; exact absurd hl h
  · rw [hc] at hc'; cases hc'; rw [ho] at h; cases h; exact e
  · rw [hc] at hc'; cases hc'; rw [ho] at h; cases h

theorem execEnc_ok {s : State} {c : Configuration} {x : Bits} (hc : s.cfg = some c) (hl : x.length % c.M = 0) :
    execEnc x s = .next (s.emit (response .ok (encodeSeq c x))) := by
  rcases execEnc_cases x s with ⟨h, _⟩ | ⟨c', hc', ⟨h, _⟩ | ⟨h, e⟩⟩
  · rw [hc] at h; cases h
  · rw [hc] at hc'; cases hc'; exact absurd hl h
  · rw [hc] at hc'; cases hc'; exact e

end Sys2Proof.Machine
end

