-- ==== Sys2Proof/Laws/Encoding.lean ====
section
/-!
SUPPORT. The header's fields as numbers, and the decoder in those terms.
-/

namespace Sys2Proof

/-- OP and ARG as quotient and remainder of the header. -/
theorem field_values (h : Word16) : opField h = h.toNat / 4096 ∧ argField h = h.toNat % 4096 := by
  have := h.isLt
  constructor
  · simp only [opField, BitVec.extractLsb_toNat, Nat.shiftRight_eq_div_pow]; omega
  · simp only [argField, BitVec.extractLsb_toNat, Nat.shiftRight_eq_div_pow]; omega

theorem header_toNat {op arg : Nat} (h1 : op < 16) (h2 : arg < 4096) : (header op arg).toNat = op * 4096 + arg := by
  simp only [header, BitVec.toNat_append, BitVec.toNat_ofNat]
  rw [Nat.mod_eq_of_lt (by omega), Nat.mod_eq_of_lt (by omega), ← Nat.shiftLeft_add_eq_or_of_lt (by omega), Nat.shiftLeft_eq]

/-- The decoder, from the number the header stands for. -/
theorem decode_toNat (c : Command) : decode c =
    if c.hdr.toNat / 4096 = 1 then
      if c.payload.length ≠ 0 then .error (.newWithPayload c.payload.length) else .ok (.new (c.hdr.toNat % 4096))
    else if c.hdr.toNat / 4096 = 2 then
      if c.hdr.toNat % 4096 ≠ 0 then .error (.nonzeroArg (c.hdr.toNat / 4096) (c.hdr.toNat % 4096)) else .ok (.enc c.payload)
    else if c.hdr.toNat / 4096 = 3 then
      if c.hdr.toNat % 4096 ≠ 0 then .error (.nonzeroArg (c.hdr.toNat / 4096) (c.hdr.toNat % 4096)) else .ok (.dec c.payload)
    else .error (.reservedOpcode (c.hdr.toNat / 4096)) := by
  simp only [decode, field_values]

end Sys2Proof
end

