-- ==== Sys2Proof/Laws/PerInstr.lean ====
section
/-!
SUPPORT. The statements made per instruction of the command set.
-/

/-- A well-formed instruction's header belongs to its own row of the opcode table and to no other row. -/
def Sys2Proof.Laws.OpcodeRow.Statement (i : Sys2Proof.Instr) : Prop :=
  i.WellFormed → (Sys2Proof.opcodeTable.filter fun row => row.covers (Sys2Proof.encode i).hdr).map
    Sys2Proof.OpcodeRow.mnemonic = [i.mnemonic]

/-- NEW's headers are those with OP = 0x1, whatever ARG is. -/
theorem Sys2Proof.Laws.OpcodeRow.new (r : Nat) : Sys2Proof.Laws.OpcodeRow.Statement (.new r) := by
  intro _
  have hop : Sys2Proof.header 0x1 r &&& 0xF000#16 = 0x1000#16 := by
    simp only [Sys2Proof.header]
    generalize BitVec.ofNat 12 r = arg
    apply BitVec.eq_of_getLsbD_eq
    intro k hk
    rw [BitVec.getLsbD_and, BitVec.getLsbD_append]
    by_cases h : k < 12
    · have : (0xF000#16).getLsbD k = false ∧ (0x1000#16).getLsbD k = false := by
        revert h; revert k; decide
      simp [this.1, this.2]
    · have h16 : k = 12 ∨ k = 13 ∨ k = 14 ∨ k = 15 := by omega
      rcases h16 with rfl | rfl | rfl | rfl <;> simp
  have hne : ∀ pat : BitVec 16, pat &&& 0xF000#16 ≠ 0x1000#16 → (Sys2Proof.header 0x1 r == pat) = false := by
    intro pat hpat
    rw [beq_eq_false_iff_ne]
    rintro rfl
    exact hpat hop
  have hff : Sys2Proof.header 0x1 r &&& 0xFFFF#16 = Sys2Proof.header 0x1 r := BitVec.and_allOnes
  simp only [Sys2Proof.opcodeTable, Sys2Proof.OpcodeRow.covers, Sys2Proof.encode, List.filter_cons, hop, hff,
    hne 0x2000#16 (by decide), hne 0x3000#16 (by decide)]
  rfl

/-- ENC's one header is 0x2000. -/
theorem Sys2Proof.Laws.OpcodeRow.enc (x : Sys2Proof.Bits) : Sys2Proof.Laws.OpcodeRow.Statement (.enc x) := by
  intro _
  simp only [Sys2Proof.encode, Sys2Proof.Instr.mnemonic]
  decide

/-- DEC's one header is 0x3000. -/
theorem Sys2Proof.Laws.OpcodeRow.dec (x : Sys2Proof.Bits) : Sys2Proof.Laws.OpcodeRow.Statement (.dec x) := by
  intro _
  simp only [Sys2Proof.encode, Sys2Proof.Instr.mnemonic]
  decide
end

