-- ==== Sys2Proof/Laws/Run.lean ====
section
/-!
SUPPORT. A run, one step at a time, and which claims can hold of it.
-/

namespace Sys2Proof.Machine

@[simp] theorem runFor_zero (s : State) :
    runFor 0 s = { responses := s.responses, final := s, ending := .completed } := rfl

/-- A step that goes on is the run's first. -/
theorem runFor_next {k : Nat} {s t : State} (h : step s = .next t) : runFor (k + 1) s = runFor k t := by
  simp only [runFor, h]

/-- A fault is the end of the run. -/
theorem runFor_fault {k : Nat} {s : State} {why : Fault} (h : step s = .fault why) :
    runFor (k + 1) s = { responses := s.responses, final := s, ending := .faulted why } := by
  simp only [runFor, h]

/-- A claim holds of a completed run exactly when its observation meets it. -/
theorem Observation.holds_of_completed {o : Observation} {claim : Observation → Prop} (h : o.ending = .completed) :
    o.Holds claim ↔ claim o :=
  ⟨And.right, And.intro h⟩

/-- No claim holds of a Refused run (60_exceptions.md R212). -/
theorem Observation.not_holds_of_refused {o : Observation} {why : Refusal} (h : o.ending = .refused why)
    (claim : Observation → Prop) : ¬ o.Holds claim := by
  rintro ⟨hs, _⟩
  rw [Observation.Safe, h] at hs
  cases hs

end Sys2Proof.Machine
end

