-- ==== Sys2Proof/Tests/Slice0.lean ====
section
/-!
SUPPORT. Tests of the model against the spec's worked values, and a witness for the hypotheses of each obligation.
Expected values come from spec/: 95_test_vectors.md and the tables named at each test, never from the model.
-/

namespace Sys2Proof.Tests

open Sys2Proof Sys2Proof.Machine

/-! ## Helpers -/

/-- A bit string as the spec writes it: one digit a bit, the leftmost digit element 0. -/
def bits (w n : Nat) : Bits := (List.range w).map fun k => n / 10 ^ (w - 1 - k) % 10 == 1

/-- A CORE configured for `r`, with the given events to come. -/
def configured (r : Nat) (events : List HostEvent) : State :=
  { params := Params.largest, cfg := some (construct r), nextCommand := 0, host := events, responses := [] }

/-- A CORE after reset with the given parameters and events to come. -/
def fresh (p : Params) (events : List HostEvent) : State := (State.resetWith p).send events

/-- The last response and the configuration an outcome leaves; none where it stops. -/
def left (o : Outcome) : Option (Option Response × Option Nat) :=
  match o with
  | .next t => some (t.responses.getLast?, t.cfg.map Configuration.r)
  | .fault _ => none
  | .refused _ => none

/-- The outcome is a refusal of a payload of this length. -/
def refusedTooLong (o : Outcome) (len : Nat) : Bool :=
  match o with
  | .refused (.payloadTooLong k) => k == len
  | _ => false

/-! ## Well-formedness: each check refuses an ill-formed term -/

theorem test_wellFormed_refuses_wide_r : (Instr.new 4096).wellFormed = false := by decide
theorem test_wellFormed_takes_widest_r : (Instr.new 4095).wellFormed = true := by decide
theorem test_asm_wellFormed_refuses_wide_r : (AsmLine.new 4096).wellFormed = false := by decide

/-! ## Decoding: words written out from 30_encoding.md R61, R63 -/

/-- OP 0001, ARG 0000 0000 0011. -/
theorem test_decode_new : decode ⟨0b0001000000000011#16, []⟩ = .ok (.new 3) := by decide
/-- OP 0001, ARG all ones. -/
theorem test_decode_new_widest : decode ⟨0b0001111111111111#16, []⟩ = .ok (.new 4095) := by decide
/-- OP 0010, ARG 0. -/
theorem test_decode_enc : decode ⟨0b0010000000000000#16, [true, false]⟩ = .ok (.enc [true, false]) := by decide
/-- OP 0011, ARG 0. -/
theorem test_decode_dec : decode ⟨0b0011000000000000#16, [false, true]⟩ = .ok (.dec [false, true]) := by decide
/-- 95_test_vectors.md 2.7. -/
theorem test_decode_reserved : decode ⟨0xF123#16, [true]⟩ = .error (.reservedOpcode 15) := by decide
theorem test_decode_zero : decode ⟨0x0000#16, []⟩ = .error (.reservedOpcode 0) := by decide
theorem test_decode_arg : decode ⟨0x3FFF#16, [true]⟩ = .error (.nonzeroArg 3 4095) := by decide
theorem test_decode_new_payload : decode ⟨0x1003#16, [true]⟩ = .error (.newWithPayload 1) := by decide
theorem test_tableWord_new : decodeTableWord 16 0x1005 = some (.new 5) := by decide
theorem test_tableWord_enc : decodeTableWord 16 0x2000 = some (.enc []) := by decide
theorem test_tableWord_dec : decodeTableWord 16 0x3000 = some (.dec []) := by decide

/-! ## Assembler and frames (30_encoding.md R70, R71; 20_memory.md R45) -/

theorem test_parse_new : parseLine ['N', 'E', 'W', ' ', '4', '0', '9', '5', ' ', ';', 'x'] = .line (.new 4095) := by
  decide
theorem test_parse_enc : parseLine ['E', 'N', 'C', ' ', '"', '1', ' ', '0', '"'] = .line (.enc [true, false]) := by
  decide
theorem test_parse_cmd : parseLine ['.', 'c', 'm', 'd', ' ', '0', 'x', '2', '0', '0', 'f', ' ', '"', '1', '"'] =
    .line (.cmd 0x200F#16 [true]) := by decide
theorem test_parse_too_wide : parseLine ['N', 'E', 'W', ' ', '4', '0', '9', '6'] = .malformed := by decide
theorem test_assemble_new : assemble (.new 3) = ⟨0x1003#16, []⟩ := by decide
theorem test_frame_bit15_first : (commandFrame ⟨0x1003#16, []⟩).take 4 = [false, false, false, true] := by decide

/-! ## Construction (95_test_vectors.md 2.1, 40_construction.md R93) -/

theorem test_colvals_2 : colvals 2 = [3, 2, 1] := by decide
theorem test_colvals_4 : colvals 4 = [15, 14, 3, 13, 5, 6, 7, 12, 9, 10, 11, 8, 4, 2, 1] := by decide
theorem test_hsys_3 : hsys 3 = [bits 7 1101100, bits 7 1110010, bits 7 1011001] := by decide
theorem test_gen_3 : gen 3 = [bits 7 1000111, bits 7 0100110, bits 7 0010011, bits 7 0001101] := by decide
theorem test_hsys_5_row0 : (hsys 5).head? = some (bits 31 1101000100000001111111111110000) := by decide
theorem test_gen_4_row7 : (gen 4)[7]? = some (bits 15 000000010001100) := by decide
theorem test_tab_3 : tab 3 = [none, some 6, some 5, some 2, some 4, some 3, some 1, some 0] := by decide
theorem test_tab_4_12 : (tab 4)[12]? = some (some 7) := by decide

/-! ## Units (95_test_vectors.md 2.2, 2.4, 2.5) -/

theorem test_vm : gf2MatrixMult .vm 7 (gen 3) (bits 4 0110) = bits 7 0110101 := by decide
theorem test_mv : gf2MatrixMult .mv 7 (hsys 3) (bits 7 1111100) = bits 3 011 := by decide
theorem test_lookup_zero : lookup (tab 3) (bits 3 000) = some { hit := false, pos := 0 } := by decide
theorem test_lookup_parity : lookup (tab 4) (bits 4 1000) = some { hit := true, pos := 11 } := by decide
/-- The unit trusts the syndrome it is given. -/
theorem test_correct_trusts_syndrome : correct (tab 3) (bits 7 1111111) (bits 3 011) = some (bits 7 1101111) := by
  decide

/-! ## Commands, one step each (95_test_vectors.md 2.3, 2.6, 3) -/

theorem test_new_replaces : left (step (configured 4 [.command ⟨0x1003#16, []⟩])) =
    some (some ⟨0x0000#16, []⟩, some 3) := by decide
theorem test_new_1_keeps : left (step (configured 3 [.command ⟨0x1001#16, []⟩])) =
    some (some ⟨0x1000#16, []⟩, some 3) := by decide
/-- P1, command 2. -/
theorem test_enc_three_blocks : left (exec (.enc (bits 12 111100001010)) (configured 3 [])) =
    some (some ⟨0x0000#16, bits 21 111111100000001010100⟩, some 3) := by decide
/-- 2.3, r = 4. -/
theorem test_enc_r4 : left (exec (.enc (bits 11 01100110011)) (configured 4 [])) =
    some (some ⟨0x0000#16, bits 15 011001100111101⟩, some 4) := by decide
/-- P1, command 3: one error in the first block and one in the last. -/
theorem test_dec_corrects : left (exec (.dec (bits 21 011111100000001010101)) (configured 3 [])) =
    some (some ⟨0x0000#16, bits 12 111100001010⟩, some 3) := by decide
/-- P4, command 2: two errors are miscorrected with status OK (R186). -/
theorem test_dec_miscorrects : left (exec (.dec (bits 7 0011111)) (configured 3 [])) =
    some (some ⟨0x0000#16, bits 4 0011⟩, some 3) := by decide

/-! ## Witnesses: a state and operands that meet the hypotheses of each obligation, with what the step then does -/

/-- A configuration NEW installs is legal, at both ends of `2..RMAX`. -/
theorem witness_legal_3 : (construct 3).Legal Params.largest := ⟨by decide, by decide, rfl, rfl, rfl⟩
theorem witness_legal_smallest : (construct 2).Legal { rmax := 2, lmax := some 0 } :=
  ⟨by decide, by decide, rfl, rfl, rfl⟩
theorem witness_params_wf : Params.largest.WF := ⟨by decide, by decide⟩

/-- The invariant holds in a configured state that has answered a command: EveryStepKeepsInvariant,
EveryCommandCompletes. -/
theorem witness_inv : State.Inv { configured 3 [.command ⟨0x2000#16, [true]⟩] with
    nextCommand := 1, responses := [⟨0x0000#16, []⟩] } where
  cfg_legal := by rintro c ⟨⟩; exact witness_legal_3
  one_response_each := rfl
  responses_legal := by
    intro r hr
    rw [List.mem_singleton.mp hr]
    exact ⟨⟨.ok, rfl⟩, fun _ => rfl⟩
theorem witness_step_next : ∃ t, step (configured 3 [.command ⟨0x2000#16, [true]⟩]) = .next t ∧
    t.responses = [⟨0x2000#16, []⟩] := ⟨_, rfl, by decide⟩

/-- ResetAbandonsCommand. -/
theorem witness_reset : (configured 3 [.reset]).host = .reset :: [] := rfl
theorem witness_resetDuring : (configured 3 [.resetDuring ⟨0x1002#16, []⟩]).params.overLong 0 = false ∧
    left (step (configured 3 [.resetDuring ⟨0x1002#16, []⟩])) = some (none, none) := by decide

/-- CoreWaitsForHost. -/
theorem witness_waits : left (step (configured 3 [])) = some (none, some 3) := by decide

/-- StepPerformsDecodedCommand and FetchWordIsPerformedNext. -/
theorem witness_performs : left (step (fresh Params.largest [.command ⟨0x1002#16, []⟩])) =
    some (some ⟨0x0000#16, []⟩, some 2) := by decide
theorem witness_fetchWord : decodeTableWord 16 0x3000 = some (.dec []) ∧
    left (step (State.reset.withFetchWord 16 0x3000)) = some (some ⟨0x3000#16, []⟩, none) := by decide

/-- StepFollowsCheckOrder, clause by clause, at the boundaries of `r`, LMAX and the block lengths. -/
theorem witness_order_lmax : refusedTooLong (step (fresh ⟨2, some 2⟩ [.command ⟨0x0000#16, bits 3 111⟩])) 3 = true ∧
    left (step (fresh ⟨2, some 3⟩ [.command ⟨0x0000#16, bits 3 111⟩])) = some (some ⟨0x4000#16, []⟩, none) := by decide
theorem witness_order_new : left (step (fresh ⟨3, none⟩ [.command ⟨0x1001#16, [true]⟩])) =
      some (some ⟨0x4000#16, []⟩, none) ∧
    left (step (fresh ⟨3, none⟩ [.command ⟨0x1001#16, []⟩])) = some (some ⟨0x1000#16, []⟩, none) ∧
    left (step (fresh ⟨3, none⟩ [.command ⟨0x1002#16, []⟩])) = some (some ⟨0x0000#16, []⟩, some 2) ∧
    left (step (fresh ⟨3, none⟩ [.command ⟨0x1003#16, []⟩])) = some (some ⟨0x0000#16, []⟩, some 3) ∧
    left (step (fresh ⟨3, none⟩ [.command ⟨0x1004#16, []⟩])) = some (some ⟨0x1000#16, []⟩, none) := by decide
theorem witness_order_enc : left (step (fresh ⟨3, none⟩ [.command ⟨0x2005#16, bits 3 111⟩])) =
      some (some ⟨0x4000#16, []⟩, none) ∧
    left (step (fresh ⟨3, none⟩ [.command ⟨0x2000#16, bits 3 111⟩])) = some (some ⟨0x3000#16, []⟩, none) ∧
    left (step (configured 3 [.command ⟨0x2000#16, bits 3 111⟩])) = some (some ⟨0x2000#16, []⟩, some 3) ∧
    left (step (configured 3 [.command ⟨0x2000#16, []⟩])) = some (some ⟨0x0000#16, []⟩, some 3) := by decide
theorem witness_order_dec : left (step (configured 3 [.command ⟨0x3001#16, []⟩])) =
      some (some ⟨0x4000#16, []⟩, some 3) ∧
    left (step (fresh ⟨3, none⟩ [.command ⟨0x3000#16, bits 3 110⟩])) = some (some ⟨0x3000#16, []⟩, none) ∧
    left (step (configured 2 [.command ⟨0x3000#16, bits 4 1101⟩])) = some (some ⟨0x2000#16, []⟩, some 2) ∧
    left (step (configured 2 [.command ⟨0x3000#16, bits 6 110001⟩])) =
      some (some ⟨0x0000#16, bits 2 10⟩, some 2) := by decide

/-- IllegalCommandsAreExactlyReserved: an illegal command at each end of the reserved opcodes. -/
theorem witness_illegal : decode ⟨0x0FFF#16, []⟩ = .error (.reservedOpcode 0) ∧
    decode ⟨0x4000#16, []⟩ = .error (.reservedOpcode 4) ∧
    left (step (configured 2 [.command ⟨0x4000#16, []⟩])) = some (some ⟨0x4000#16, []⟩, some 2) := by decide

/-- RefusedExactlyWhenPayloadTooLong: the refusal of a cut-off command too. -/
theorem witness_refused : refusedTooLong (step (fresh ⟨2, some 0⟩ [.resetDuring ⟨0x2000#16, [true]⟩])) 1 = true := by
  decide

/-- NewInstallsConfiguration, FailedNewWritesNoState, RepeatedCommandsAgree (NEW), ReconfigurationHazard. -/
theorem witness_new : left (exec (.new 2) (configured 3 [])) = some (some ⟨0x0000#16, []⟩, some 2) ∧
    2 ≤ (configured 3 []).params.rmax := by decide
theorem witness_new_fails : left (exec (.new 4096) (configured 3 [])) = some (some ⟨0x1000#16, []⟩, some 3) := by decide
theorem witness_hazard : (bits 7 1010100).length % (2 ^ 4 - 1) ≠ 0 ∧ (bits 3 101).length % (2 ^ 2 - 1) = 0 := by decide

/-- ColumnValuesClosedForm: a position of each kind, and the one place two of them meet. -/
theorem witness_colval_kinds : colval (hsys 3) 6 = 1 ∧ colval (hsys 3) 0 = 7 ∧ colval (hsys 3) 2 = 3 ∧
    colval (hsys 2) 1 = 2 := by decide
theorem witness_colval_other : 2 < 2 ^ 3 - 1 ∧ (∀ i, i < 3 → 2 ≠ 2 ^ 3 - 1 - 1 - i) ∧ ∀ i, i < 3 → 2 ≠ 2 ^ i - 1 := by
  decide
theorem witness_colval_power : ∀ i, i < 3 → 2 ^ 2 - 1 ≠ 2 ^ 3 - 1 - 1 - i := by decide
theorem witness_colval_meet : 2 ^ 1 - 1 = 2 ^ 2 - 1 - 1 - 1 := by decide

/-- SwapOrderHasNoEffect: the reverse order. -/
theorem witness_order_perm : [2, 1, 0].Perm (List.range 3) ∧ colvalsAfter 3 [2, 1, 0] = [7, 6, 3, 5, 4, 2, 1] := by
  decide

/-- VectorMatrixProduct, MatrixVectorProduct, PackedProductsAgree: a matrix with its shape and vectors of both widths. -/
theorem witness_shape : hasShape 3 7 (hsys 3) ∧ (bits 3 101).length = 3 ∧ (bits 7 1100000).length = 7 := by
  unfold hasShape; decide

/-- CodewordIsSystematic, SingleErrorBlockIsCorrected, CodewordsHaveZeroSyndrome: a data block and a position. -/
theorem witness_block : (bits 4 1010).length = (construct 3).M ∧ 6 < (construct 3).N ∧ (construct 3).M = codeM 3 := by
  decide

/-- EncRespondsWithCodewords, EncThenDecReturnsData, BlocksAreIndependent, EqualParityOrdersInteroperate. -/
theorem witness_enc_length : (configured 3 []).cfg = some (construct 3) ∧ (bits 8 11110000).length % (construct 3).M = 0 ∧
    (bits 8 11110000).length % (2 ^ 3 - 1 - 3) = 0 ∧ 0 < (bits 8 11110000).length / (construct 3).M := by decide

/-- EncErrorsReturnNoOutput and DecErrorsReturnNoOutput: both hypotheses of each. -/
theorem witness_enc_errors : (fresh Params.largest []).cfg = none ∧ (bits 5 11110).length % (construct 3).M ≠ 0 := by
  decide
theorem witness_dec_errors : (fresh Params.largest []).cfg = none ∧ (bits 8 11111111).length % (construct 3).N ≠ 0 := by
  decide

/-- LookupHitsEveryNonzeroSyndrome and CorrectorFlipsExactlyNamedBit: syndrome 0, and the smallest and largest others. -/
theorem witness_syndromes : (bits 3 000).length = (construct 3).r ∧ intBe (bits 3 000) = 0 ∧ intBe (bits 3 001) = 1 ∧
    intBe (bits 3 111) = 7 ∧ (bits 7 1111111).length = (construct 3).N := by decide

/-- SingleErrorIsLocated and UndetectedErrorsPassThrough: a codeword, and R186's error pattern at positions 0, 1, 6. -/
theorem witness_codeword : mv (construct 3).H (bits 7 0110101) = List.replicate (construct 3).r false ∧
    mv (construct 3).H (bits 7 1100001) = List.replicate (construct 3).r false ∧
    (bits 7 0110101).length = (construct 3).N ∧ (bits 7 1100001).length = (construct 3).N := by decide

/-- DecRespondsWithCorrectedData: a block with syndrome 0 and one with another. -/
theorem witness_dec_blocks : (bits 14 11111110111111).length % (construct 3).N = 0 ∧
    intBe (mv (construct 3).H (slice (bits 14 11111110111111) 0 7)) = 0 ∧
    intBe (mv (construct 3).H (slice (bits 14 11111110111111) 7 14)) = 7 := by decide

/-- OneErrorPerBlockIsCorrected: 95_test_vectors.md S8, errors in the first and last block only. -/
theorem witness_errors_per_block :
    left (exec (.enc (bits 12 111100001010)) (configured 3 [])) =
      some (some ⟨0x0000#16, bits 21 111111100000001010100⟩, some 3) ∧
    slice (bits 21 011111100000001010101) 0 7 = flipBit (slice (bits 21 111111100000001010100) 0 7) 0 ∧
    slice (bits 21 011111100000001010101) 7 14 = slice (bits 21 111111100000001010100) 7 14 ∧
    slice (bits 21 011111100000001010101) 14 21 = flipBit (slice (bits 21 111111100000001010100) 14 21) 6 := by decide

/-- BlocksAreIndependent: both parts decode. -/
theorem witness_independent : decodeSeq (construct 3) (bits 7 0111111) = some (bits 4 1111) ∧
    decodeSeq (construct 3) (bits 7 1010101) = some (bits 4 1010) := by decide

/-- EveryStepKeepsConfigurationLegal: a configured state whose step goes on. -/
theorem witness_configured_legal : ∀ c, (configured 3 [.command ⟨0x1002#16, []⟩]).cfg = some c →
    c.Legal (configured 3 [.command ⟨0x1002#16, []⟩]).params := by
  rintro c ⟨⟩; exact witness_legal_3
theorem witness_configured_steps : left (step (configured 3 [.command ⟨0x1002#16, []⟩])) =
    some (some ⟨0x0000#16, []⟩, some 2) := by decide

/-- RunFromResetAnswersEveryCommand: payloads of exactly LMAX bits. -/
theorem witness_run_completes : (∀ c ∈ [⟨0x1002#16, []⟩, ⟨0x2000#16, [true]⟩],
      (⟨2, some 1⟩ : Params).overLong (c : Command).payload.length = false) ∧
    (runCommands ⟨2, some 1⟩ [⟨0x1002#16, []⟩, ⟨0x2000#16, [true]⟩]).responses =
      [⟨0x0000#16, []⟩, ⟨0x0000#16, bits 3 111⟩] := by decide

/-- NoClaimHoldsOfRefusedRun: a payload of LMAX + 1 bits, after an answered command and before another. -/
theorem witness_run_refused : (⟨2, some 1⟩ : Params).overLong 0 = false ∧
    (⟨2, some 1⟩ : Params).overLong (bits 2 11).length = true ∧
    (runCommands ⟨2, some 1⟩ [⟨0x1002#16, []⟩, ⟨0x2000#16, bits 2 11⟩, ⟨0x3000#16, []⟩]).ending =
      .refused (.payloadTooLong 2) := by decide

/-- ConfigurationStaysUntilNextNew: a state between two successful NEWs, the second still to come after two steps. -/
def betweenNews : State := configured 3 [.command ⟨0x2000#16, []⟩, .command ⟨0x1001#16, []⟩, .command ⟨0x1002#16, []⟩]
theorem witness_between_news :
    ∀ e ∈ betweenNews.host.take 2, ∃ c, e = .command c ∧ keepsConfiguration c betweenNews.params.rmax := by
  intro e he
  have he' : e = .command ⟨0x2000#16, []⟩ ∨ e = .command ⟨0x1001#16, []⟩ := by
    simpa [betweenNews, configured] using he
  rcases he' with rfl | rfl
  · exact ⟨_, rfl, fun r h => by cases h⟩
  · exact ⟨_, rfl, fun r h => by cases h; exact .inl (by decide)⟩
theorem witness_between_news_then_new : (runFor 2 betweenNews).final.cfg.map Configuration.r = some 3 ∧
    (runFor 3 betweenNews).final.cfg.map Configuration.r = some 2 := by decide

/-- NothingSucceedsBeforeNew, and the commands ConfigurationStaysUntilNextNew allows: ENC, DEC, an illegal command and a NEW that fails. -/
theorem witness_keeps : keepsConfiguration ⟨0x2000#16, []⟩ 3 ∧ keepsConfiguration ⟨0x3000#16, []⟩ 3 ∧
    keepsConfiguration ⟨0x0000#16, []⟩ 3 ∧ keepsConfiguration ⟨0x1004#16, []⟩ 3 := by
  refine ⟨?_, ?_, ?_, ?_⟩ <;> intro r h <;> cases h
  exact .inr (by decide)

/-- ResponseDependsOnlyOnConfiguration: two states that differ in everything else. -/
theorem witness_depends : (configured 3 []).cfg = (configured 3 [.reset]).cfg ∧
    (configured 3 []).params.rmax = (configured 3 [.reset]).params.rmax ∧
    (left (exec (.dec []) (configured 3 []))).isSome = true := by decide

end Sys2Proof.Tests
end

section
/-!
PROOFS. Scope (00_scope.md): big-endian numbers, and the sizes of H, G and T.
-/

namespace Sys2Proof.Machine

/-! ## Big-endian numbers (R13) -/

/-- Element `k` of a vector of `w` bits weighs `2^(w - 1 - k)`: element 0 is the most significant. -/
theorem intBe_eq_sum_weights (v : Bits) :
    intBe v = ((List.range v.length).map fun k => (v.getD k false).toNat * 2 ^ (v.length - 1 - k)).sum := by
  induction v with
  | nil => rfl
  | cons b v ih =>
    have hweight (k : Nat) : v.length - 1 - k = v.length - (k + 1) := by omega
    rw [intBe_cons, ih, List.length_cons, List.range_succ_eq_map]
    simp [Function.comp_def, hweight]

/-- Settles O15: both round trips are the laws of `be` and `intBe`, and the weights follow by induction on the vector. -/
theorem bigEndianValueRoundTrip : Obligations.BigEndianValueRoundTrip :=
  ⟨fun w x hx => ⟨be_length w x, intBe_be hx⟩, fun v => ⟨intBe_lt v, be_intBe v⟩, intBe_eq_sum_weights⟩

/-! ## The sizes of H, G and T (R10) -/

/-- Settles O52: a legal configuration is the one its parity order builds, and the construction's laws give its sizes. -/
theorem legalConfigurationSizes : Obligations.LegalConfigurationSizes := by
  intro p c hc
  obtain ⟨r, hr, -, rfl⟩ := exists_construct hc
  obtain ⟨hlen, -, hzero⟩ := tab_spec hr
  refine ⟨hasShape_hsys hr, hasShape_gen hr, hlen, hzero, fun v hv hlt => ?_⟩
  obtain ⟨q, hq, -, hentry⟩ := tab_hits hr hv (Nat.le_sub_one_of_lt hlt)
  exact ⟨q, hq, hentry⟩

end Sys2Proof.Machine
end

section
/-!
PROOFS. Architectural state (10_state.md): what a command can answer, the frame of every command, and the invariant.
-/

namespace Sys2Proof.Machine

/-! ## What each command answers -/

theorem execNew_fails {r : Nat} {s : State} (h : r < 2 ∨ s.params.rmax < r) :
    execNew r s = .next (s.emit (response .invalidParameterError [])) := by
  rcases execNew_cases r s with ⟨-, he⟩ | ⟨h2, hle, -⟩
  · exact he
  · omega

theorem execNew_installs {r : Nat} {s : State} (h2 : 2 ≤ r) (hle : r ≤ s.params.rmax) :
    execNew r s = .next ((s.install (construct r)).emit (response .ok [])) := by
  rcases execNew_cases r s with ⟨h, -⟩ | ⟨-, -, he⟩
  · omega
  · exact he

theorem execEnc_notConfigured {s : State} (x : Bits) (hc : s.cfg = none) :
    execEnc x s = .next (s.emit (response .notConfiguredError [])) := by
  rw [execEnc, hc]; rfl

theorem execDec_notConfigured {s : State} (x : Bits) (hc : s.cfg = none) :
    execDec x s = .next (s.emit (response .notConfiguredError [])) := by
  rw [execDec, hc]; rfl

theorem execEnc_invalidLength {s : State} {c : Configuration} {x : Bits} (hc : s.cfg = some c)
    (hl : x.length % c.M ≠ 0) : execEnc x s = .next (s.emit (response .invalidLengthError [])) := by
  simp [execEnc, hc, hl, raise, respond]

theorem execDec_invalidLength {s : State} {c : Configuration} {x : Bits} (hc : s.cfg = some c)
    (hl : x.length % c.N ≠ 0) : execDec x s = .next (s.emit (response .invalidLengthError [])) := by
  simp [execDec, hc, hl, raise, respond]

/-- `Answers rmax cfg d rsp cfg'`: with configuration `cfg`, a command the decoder reads as `d` completes with response
`rsp` and leaves configuration `cfg'`. Nothing else of the state takes part (10_state.md R29, R30). -/
inductive Answers (rmax : Nat) (cfg : Option Configuration) :
    Except IllegalReason Instr → Response → Option Configuration → Prop where
  | illegal {why} : Answers rmax cfg (.error why) (response .illegalCommandError []) cfg
  | newFails {r} (hr : r < 2 ∨ rmax < r) : Answers rmax cfg (.ok (.new r)) (response .invalidParameterError []) cfg
  | newInstalls {r} (h2 : 2 ≤ r) (hle : r ≤ rmax) :
      Answers rmax cfg (.ok (.new r)) (response .ok []) (some (construct r))
  | encNotConfigured {x} (hc : cfg = none) : Answers rmax cfg (.ok (.enc x)) (response .notConfiguredError []) cfg
  | encInvalidLength {x c} (hc : cfg = some c) (hl : x.length % c.M ≠ 0) :
      Answers rmax cfg (.ok (.enc x)) (response .invalidLengthError []) cfg
  | encodes {x c} (hc : cfg = some c) (hl : x.length % c.M = 0) :
      Answers rmax cfg (.ok (.enc x)) (response .ok (encodeSeq c x)) cfg
  | decNotConfigured {x} (hc : cfg = none) : Answers rmax cfg (.ok (.dec x)) (response .notConfiguredError []) cfg
  | decInvalidLength {x c} (hc : cfg = some c) (hl : x.length % c.N ≠ 0) :
      Answers rmax cfg (.ok (.dec x)) (response .invalidLengthError []) cfg
  | decodes {x c out} (hc : cfg = some c) (hl : x.length % c.N = 0) (hd : decodeSeq c x = some out) :
      Answers rmax cfg (.ok (.dec x)) (response .ok out) cfg

/-- The state once a command has answered `rsp` and left the configuration `cfg`. -/
def State.answered (s : State) (rsp : Response) (cfg : Option Configuration) : State := { s.emit rsp with cfg := cfg }

@[simp] theorem answered_params (s : State) (rsp : Response) (cfg : Option Configuration) :
    (s.answered rsp cfg).params = s.params := rfl
@[simp] theorem answered_cfg (s : State) (rsp : Response) (cfg : Option Configuration) :
    (s.answered rsp cfg).cfg = cfg := rfl
@[simp] theorem answered_host (s : State) (rsp : Response) (cfg : Option Configuration) :
    (s.answered rsp cfg).host = s.host := rfl
@[simp] theorem answered_responses (s : State) (rsp : Response) (cfg : Option Configuration) :
    (s.answered rsp cfg).responses = s.responses ++ [rsp] := rfl
@[simp] theorem answered_nextCommand (s : State) (rsp : Response) (cfg : Option Configuration) :
    (s.answered rsp cfg).nextCommand = s.nextCommand + 1 := rfl

theorem eq_of_next {o : Outcome} {t u : State} (hu : o = .next u) (ht : o = .next t) : t = u :=
  Host.Outcome.next.inj (ht.symm.trans hu)

/-- A command completes exactly with what `Answers` says. -/
theorem exec_next_iff {i : Instr} {s t : State} :
    exec i s = .next t ↔ ∃ rsp cfg, Answers s.params.rmax s.cfg (.ok i) rsp cfg ∧ t = s.answered rsp cfg := by
  constructor
  · intro h
    cases i with
    | new r =>
      rcases execNew_cases r s with ⟨hr, he⟩ | ⟨h2, hle, he⟩
      · exact ⟨_, _, .newFails hr, eq_of_next he h⟩
      · exact ⟨_, _, .newInstalls h2 hle, eq_of_next he h⟩
    | enc x =>
      rcases execEnc_cases x s with ⟨hc, he⟩ | ⟨c, hc, ⟨hl, he⟩ | ⟨hl, he⟩⟩
      · exact ⟨_, _, .encNotConfigured hc, eq_of_next he h⟩
      · exact ⟨_, _, .encInvalidLength hc hl, eq_of_next he h⟩
      · exact ⟨_, _, .encodes hc hl, eq_of_next he h⟩
    | dec x =>
      rcases execDec_cases x s with ⟨hc, he⟩ | ⟨c, hc, ⟨hl, he⟩ | ⟨hl, out, hd, he⟩ | ⟨_, _, he⟩⟩
      · exact ⟨_, _, .decNotConfigured hc, eq_of_next he h⟩
      · exact ⟨_, _, .decInvalidLength hc hl, eq_of_next he h⟩
      · exact ⟨_, _, .decodes hc hl hd, eq_of_next he h⟩
      · cases he.symm.trans h
  · rintro ⟨rsp, cfg, ha, rfl⟩
    cases ha with
    | newFails hr => exact execNew_fails hr
    | newInstalls h2 hle => exact execNew_installs h2 hle
    | encNotConfigured hc => exact execEnc_notConfigured _ hc
    | encInvalidLength hc hl => exact execEnc_invalidLength hc hl
    | encodes hc hl => exact execEnc_ok hc hl
    | decNotConfigured hc => exact execDec_notConfigured _ hc
    | decInvalidLength hc hl => exact execDec_invalidLength hc hl
    | decodes hc hl hd => exact execDec_ok hc hl hd

section Answers

variable {rmax : Nat} {cfg cfg' : Option Configuration} {d : Except IllegalReason Instr} {rsp : Response}

theorem Answers.response_legal (h : Answers rmax cfg d rsp cfg') : rsp.Legal := by
  cases h with
  | newInstalls | encodes | decodes => exact Machine.response_legal (.inl rfl)
  | _ => exact Machine.response_legal (.inr rfl)

/-- Only a NEW that succeeds changes the configuration (10_state.md R27). -/
theorem Answers.cfg_cases (h : Answers rmax cfg d rsp cfg') :
    cfg' = cfg ∨ ∃ r, d = .ok (.new r) ∧ 2 ≤ r ∧ r ≤ rmax ∧ cfg' = some (construct r) := by
  cases h with
  | newInstalls h2 hle => exact .inr ⟨_, rfl, h2, hle, rfl⟩
  | _ => exact .inl rfl

theorem Answers.cfg_legal {p : Params} (h : Answers p.rmax cfg d rsp cfg') (hcfg : ∀ c, cfg = some c → c.Legal p) :
    ∀ c, cfg' = some c → c.Legal p := by
  rcases h.cfg_cases with rfl | ⟨r, -, h2, hle, rfl⟩
  · exact hcfg
  · rintro _ ⟨⟩
    exact legal_construct h2 hle

end Answers

/-- A step that goes on waits, takes a reset, or answers a command. -/
theorem step_next_answers {s t : State} (h : step s = .next t) :
    (s.host = [] ∧ t = s) ∨
    (∃ e rest, s.host = e :: rest ∧ (∀ c, e ≠ .command c) ∧ t = takeReset s rest) ∨
    ∃ c rest rsp cfg, s.host = .command c :: rest ∧ Answers s.params.rmax s.cfg (decode c) rsp cfg ∧
      t = (s.withHost rest).answered rsp cfg := by
  rcases step_next_cases h with hw | ⟨e, rest, hh, he, ht⟩ | ⟨c, rest, hh, -, ⟨why, hd, ht⟩ | ⟨i, hd, hi⟩⟩
  · exact .inl hw
  · refine .inr (.inl ⟨e, rest, hh, ?_, ht⟩)
    rcases he with rfl | ⟨_, rfl⟩ <;> simp
  · exact .inr (.inr ⟨c, rest, _, _, hh, hd ▸ .illegal, ht⟩)
  · obtain ⟨rsp, cfg, ha, ht⟩ := exec_next_iff.mp hi
    exact .inr (.inr ⟨c, rest, rsp, cfg, hh, hd ▸ ha, ht⟩)

/-! ## Every step keeps the invariant (R32) -/

/-- Settles O53: a reset leaves no configuration, and what a command leaves is legal if what it found was. -/
theorem everyStepKeepsConfigurationLegal : Obligations.EveryStepKeepsConfigurationLegal := by
  intro s t hs h
  rcases step_next_answers h with ⟨-, rfl⟩ | ⟨e, rest, -, -, rfl⟩ | ⟨c, rest, rsp, cfg, -, ha, rfl⟩
  · exact hs
  · rintro c ⟨⟩
  · exact ha.cfg_legal hs

theorem inv_takeReset (s : State) (rest : List HostEvent) : (takeReset s rest).Inv where
  cfg_legal := by simp
  one_response_each := rfl
  responses_legal := by simp

theorem State.Inv.answered {s : State} (hs : s.Inv) {rest : List HostEvent} {rsp : Response} {cfg : Option Configuration}
    {d : Except IllegalReason Instr} (ha : Answers s.params.rmax s.cfg d rsp cfg) :
    ((s.withHost rest).answered rsp cfg).Inv where
  cfg_legal := ha.cfg_legal hs.cfg_legal
  one_response_each := by simp [hs.one_response_each]
  responses_legal := by
    simp only [answered_responses, withHost_responses, List.forall_mem_append, List.forall_mem_singleton]
    exact ⟨hs.responses_legal, ha.response_legal⟩

/-- Settles O42: a wait changes nothing, a reset starts afresh, and a command appends its one legal response. -/
theorem everyStepKeepsInvariant : Obligations.EveryStepKeepsInvariant := by
  intro s t hs h
  rcases step_next_answers h with ⟨-, rfl⟩ | ⟨e, rest, -, -, rfl⟩ | ⟨c, rest, rsp, cfg, -, ha, rfl⟩
  · exact hs
  · exact inv_takeReset s rest
  · exact hs.answered ha

/-! ## The frame of a command (R21, R27) -/

/-- Settles O41: `Answers` fixes the response and the configuration, and nothing else changes but the index. -/
theorem everyCommandKeepsItsFrame : Obligations.EveryCommandKeepsItsFrame := by
  intro i s t h
  obtain ⟨rsp, cfg, ha, rfl⟩ := exec_next_iff.mp h
  refine ⟨rfl, rfl, rfl, ⟨rsp, rfl, ha.response_legal⟩, fun x hi => ?_, fun r hi => ?_⟩
  · rcases ha.cfg_cases with hcfg | ⟨r, hd, -⟩
    · exact hcfg
    · rcases hi with rfl | rfl <;> cases hd
  · subst hi
    cases ha with
    | newFails hr => exact .inl ⟨rfl, hr⟩
    | newInstalls h2 hle => exact .inr ⟨h2, hle, rfl⟩

/-! ## What a response depends on (R29, R30) -/

/-- Settles O51: `Answers` reads the command, the configuration and RMAX alone. -/
theorem responseDependsOnlyOnConfiguration : Obligations.ResponseDependsOnlyOnConfiguration := by
  intro i s s' t hcfg hrmax h
  obtain ⟨rsp, cfg, ha, rfl⟩ := exec_next_iff.mp h
  rw [hcfg, hrmax] at ha
  exact ⟨rsp, s'.answered rsp cfg, exec_next_iff.mpr ⟨rsp, cfg, ha, rfl⟩, rfl, rfl, rfl⟩

/-! ## Between two successful NEWs (R27) -/

/-- A run whose first step faults or is refused ends where it began. -/
theorem runFor_final_of_stop {s : State} (h : ∀ t, step s ≠ .next t) (k : Nat) : (runFor k s).final = s := by
  cases k with
  | zero => rfl
  | succ k =>
    rw [runFor]
    split
    · exact absurd ‹_› (h _)
    · rfl
    · rfl

theorem Answers.cfg_eq_of_keeps {rmax : Nat} {cfg cfg' : Option Configuration} {c : Command} {rsp : Response}
    (h : Answers rmax cfg (decode c) rsp cfg') (hc : keepsConfiguration c rmax) : cfg' = cfg := by
  rcases h.cfg_cases with heq | ⟨r, hd, h2, hle, -⟩
  · exact heq
  · have := hc r hd
    omega

/-- Settles O46, by induction on the number of steps: each of them waits, stops the run, or answers a command that
keeps the configuration. -/
theorem configurationStaysUntilNextNew : Obligations.ConfigurationStaysUntilNextNew := by
  intro k
  induction k with
  | zero => exact fun s _ => rfl
  | succ k ih =>
    intro s hev
    by_cases hstep : ∃ t, step s = .next t
    · obtain ⟨t, ht⟩ := hstep
      rw [runFor_next ht]
      rcases step_next_answers ht with ⟨hh, rfl⟩ | ⟨e, rest, hh, he, rfl⟩ | ⟨c, rest, rsp, cfg, hh, ha, rfl⟩
      · exact ih t (by simp [hh])
      · obtain ⟨c, hc, -⟩ := hev e (by simp [hh])
        exact absurd hc (he c)
      · rw [hh, List.take_succ_cons, List.forall_mem_cons] at hev
        obtain ⟨⟨c', hc', hkeeps⟩, hrest⟩ := hev
        cases hc'
        exact (ih _ hrest).trans (ha.cfg_eq_of_keeps hkeeps)
    · rw [runFor_final_of_stop (not_exists.mp hstep)]

/-! ## Reset (R33) -/

/-- Settles O1: the fields of the reset state. -/
theorem resetLeavesNoConfiguration : Obligations.ResetLeavesNoConfiguration :=
  fun p => ⟨rfl, resetWith_cfg p, resetWith_host p, resetWith_responses p, resetWith_nextCommand p⟩

/-- Settles O43: after reset there is no configuration and no response, so the invariant asks nothing of either. -/
theorem resetMeetsInvariant : Obligations.ResetMeetsInvariant := fun p events => {
  cfg_legal := by simp
  one_response_each := rfl
  responses_legal := by simp }

end Sys2Proof.Machine
end

section
/-!
PROOFS. Memory and the port (20_memory.md): waiting, the command stream, frames, and repeated commands.
-/

namespace Sys2Proof.Machine

/-! ## The command stream (R41, R54) -/

/-- Settles O3: with nothing to fetch the step goes on from the state it found. -/
theorem coreWaitsForHost : Obligations.CoreWaitsForHost := by
  intro s h
  rw [step, fetch_waiting h]

/-- Settles O9: a wait finds no event, and a reset or an answered command takes exactly the oldest one. -/
theorem stepLeavesStreamAndParameters : Obligations.StepLeavesStreamAndParameters := by
  intro s t h
  rcases step_next_answers h with ⟨hh, rfl⟩ | ⟨e, rest, hh, -, rfl⟩ | ⟨c, rest, rsp, cfg, hh, -, rfl⟩
  · simp [hh]
  · simp [hh]
  · simp [hh]

/-! ## Frames (R45, R69) -/

@[simp] theorem wordBits_length (w : Word16) : (wordBits w).length = 16 := be_length 16 w.toNat

/-- Element `k` of a frame that starts with the word is the word's bit `15 - k`, whatever follows. -/
theorem wordBits_append_getElem? (w : Word16) (x : Bits) {k : Nat} (hk : k < 16) :
    (wordBits w ++ x)[k]? = some (w.getLsbD (15 - k)) := by
  rw [List.getElem?_append_left (by simpa using hk)]
  simp [wordBits, be, hk, BitVec.getLsbD]

@[simp] theorem wordOfBits_wordBits (w : Word16) : wordOfBits (wordBits w) = w := by
  rw [wordOfBits, wordBits, intBe_be w.isLt, BitVec.ofNat_toNat, BitVec.setWidth_eq]

@[simp] theorem commandFrame_length (c : Command) : (commandFrame c).length = 16 + c.payload.length := by
  simp [commandFrame]

/-- Cutting a command's frame after its 16 header bits gives the command back. -/
theorem commandOfFrame_commandFrame (c : Command) : commandOfFrame (commandFrame c) = some c := by
  rw [commandOfFrame, if_neg (by simp)]
  simp [commandFrame]

/-- Settles O14: both frames start with their word's 16 bits, so cutting a command's there gives it back. -/
theorem frameRoundTrip : Obligations.FrameRoundTrip :=
  ⟨fun c => ⟨commandFrame_length c, fun _ hk => wordBits_append_getElem? c.hdr c.payload hk,
    commandOfFrame_commandFrame c⟩, fun r _ hk => wordBits_append_getElem? r.rsp r.payload hk⟩

/-! ## Repeated commands (R50) -/

/-- Settles O48: ENC and DEC leave the configuration and RMAX, on which alone the response depends; a NEW meets the same
RMAX the second time, so it fails again or installs the same configuration again. -/
theorem repeatedCommandsAgree : Obligations.RepeatedCommandsAgree := by
  refine ⟨fun i x s t hi h => ?_, fun r s t u ht hu => ?_⟩
  · obtain ⟨hparams, -, -, -, hkeeps, -⟩ := everyCommandKeepsItsFrame i s t h
    have hcfg : t.cfg = s.cfg := hkeeps x hi
    obtain ⟨rsp, u, hu, hts, hut, huc⟩ :=
      responseDependsOnlyOnConfiguration i s t t hcfg.symm (by rw [hparams]) h
    exact ⟨hcfg, rsp, u, hts, hu, huc.trans hcfg, hut⟩
  · obtain ⟨hparams, -, -, -, -, hnew⟩ := everyCommandKeepsItsFrame _ s t ht
    obtain ⟨-, -, -, -, -, hagain⟩ := everyCommandKeepsItsFrame _ t u hu
    rcases hagain r rfl with ⟨hsame, -⟩ | ⟨h2, hle, hinstalled⟩
    · exact hsame
    · rw [hparams] at hle
      rcases hnew r rfl with ⟨-, hfails⟩ | ⟨-, -, hcfg⟩
      · omega
      · rw [hinstalled, hcfg]

end Sys2Proof.Machine
end

section
/-!
PROOFS. Encoding (30_encoding.md): the decoder and the encoder are inverses; illegal commands; table words; the assembler.
-/

namespace Sys2Proof.Machine

/-! ## What the decoder answers (R61, R64, R65) -/

/-- The headers and shapes R65 reserves, on the number the header stands for. -/
def Reserved (c : Command) : Prop :=
  (c.hdr.toNat / 4096 = 0 ∨ 4 ≤ c.hdr.toNat / 4096) ∨ (c.hdr.toNat / 4096 = 1 ∧ c.payload ≠ []) ∨
    ((c.hdr.toNat / 4096 = 2 ∨ c.hdr.toNat / 4096 = 3) ∧ c.hdr.toNat % 4096 ≠ 0)

theorem new_wellFormed_iff {r : Nat} : (Instr.new r).WellFormed ↔ r < 4096 := by
  simp [Instr.WellFormed, Instr.wellFormed]

/-- Every header is the one of its own OP and ARG. -/
theorem header_div_mod (h : Word16) : header (h.toNat / 4096) (h.toNat % 4096) = h := by
  have hlt := h.isLt
  apply BitVec.eq_of_toNat_eq
  rw [header_toNat (by omega) (by omega)]
  omega

theorem header_op {op arg : Nat} (hop : op < 16) (harg : arg < 4096) : (header op arg).toNat / 4096 = op := by
  rw [header_toNat hop harg]
  omega

theorem header_arg {op arg : Nat} (hop : op < 16) (harg : arg < 4096) : (header op arg).toNat % 4096 = arg := by
  rw [header_toNat hop harg]
  omega

/-- Everything the decoder can answer: `Illegal` for a reserved command, and otherwise a well-formed instruction whose
encoding is the command. -/
theorem decode_cases (c : Command) :
    (Reserved c ∧ ∃ why, decode c = .error why) ∨
    (¬ Reserved c ∧ ∃ i, decode c = .ok i ∧ i.WellFormed ∧ encode i = c) := by
  obtain ⟨hdr, x⟩ := c
  have hhdr := header_div_mod hdr
  have harg : hdr.toNat % 4096 < 4096 := Nat.mod_lt _ (by decide)
  rw [decode_toNat, Reserved]
  generalize hdr.toNat / 4096 = op at hhdr ⊢
  generalize hdr.toNat % 4096 = arg at hhdr harg ⊢
  subst hhdr
  by_cases h1 : op = 1
  · subst h1
    cases x with
    | nil => exact .inr ⟨by simp, .new arg, rfl, new_wellFormed_iff.mpr harg, rfl⟩
    | cons b x => exact .inl ⟨by simp, _, rfl⟩
  by_cases h2 : op = 2
  · subst h2
    by_cases h0 : arg = 0
    · subst h0; exact .inr ⟨by simp, .enc x, rfl, rfl, rfl⟩
    · exact .inl ⟨by simp [h0], _, if_pos h0⟩
  by_cases h3 : op = 3
  · subst h3
    by_cases h0 : arg = 0
    · subst h0; exact .inr ⟨by simp, .dec x, rfl, rfl, rfl⟩
    · exact .inl ⟨by simp [h0], _, if_pos h0⟩
  · exact .inl ⟨.inl (by omega), .reservedOpcode op, by simp only [h1, h2, h3, if_false]⟩

theorem decode_error_iff (c : Command) : (∃ why, decode c = .error why) ↔ Reserved c := by
  rcases decode_cases c with ⟨hres, why, hd⟩ | ⟨hres, i, hd, -⟩
  · exact ⟨fun _ => hres, fun _ => ⟨why, hd⟩⟩
  · simp [hres, hd]

theorem decode_encode {i : Instr} (hi : i.WellFormed) : decode (encode i) = .ok i := by
  rw [decode_toNat]
  cases i with
  | new r =>
    have hr := new_wellFormed_iff.mp hi
    simp [encode, header_op, header_arg, hr]
  | enc x => simp [encode, header_op, header_arg]
  | dec x => simp [encode, header_op, header_arg]

/-- Settles O10: the two fields of the header `encode` builds are the OP and the ARG it was given. -/
theorem decodeOfEncodeIsIdentity : Obligations.DecodeOfEncodeIsIdentity :=
  fun _ hi => decode_encode hi

/-- Settles O11: a command that decodes is not reserved, and is then the encoding of the instruction it decodes to. -/
theorem encodeOfDecodeIsIdentity : Obligations.EncodeOfDecodeIsIdentity := by
  intro c i h
  rcases decode_cases c with ⟨-, why, hd⟩ | ⟨-, j, hd, hwf, henc⟩
  · cases hd.symm.trans h
  · cases hd.symm.trans h
    exact ⟨hwf, henc⟩

/-- Settles O7: the decoder's cases give the exact set, and the step raises the error. -/
theorem illegalCommandsAreExactlyReserved : Obligations.IllegalCommandsAreExactlyReserved := by
  refine fun c => ⟨decode_error_iff c, fun s rest why hh hl hd => ?_⟩
  rw [step_command hh hl, hd]
  rfl

/-! ## Table words (R61) -/

/-- An empty payload is within every LMAX. -/
theorem overLong_zero (p : Params) : p.overLong 0 = false := by
  rw [Bool.eq_false_iff, Ne, overLong_iff]
  rintro ⟨bound, -, hlt⟩
  exact absurd hlt (Nat.not_lt_zero bound)

theorem decodeTableWord_eq_some {nbits w : Nat} {i : Instr} :
    decodeTableWord nbits w = some i ↔ decode (tableCommand nbits w) = .ok i := by
  rw [decodeTableWord]
  cases decode (tableCommand nbits w) <;> simp

/-- Settles O5: the word's command stands first and its payload is empty, so the step accepts it; taking it from the
host leaves the original state. -/
theorem fetchWordIsPerformedNext : Obligations.FetchWordIsPerformedNext := by
  intro s w i hw
  have hhost : (s.withFetchWord 16 w).host = .command (tableCommand 16 w) :: s.host := rfl
  rw [step_command hhost (overLong_zero s.params), decodeTableWord_eq_some.mp hw]
  rfl

/-! ## The assembler (R70, R71) -/

/-- R70 writes NEW's header as a bitwise or; for an `r` of 12 bits that is the header with OP 1 and ARG `r`. -/
theorem assemble_new {r : Nat} (hr : r < 4096) : assemble (.new r) = encode (.new r) := by
  have hhdr : 0x1000#16 ||| BitVec.ofNat 16 r = header 1 r := by
    apply BitVec.eq_of_toNat_eq
    simp only [header, BitVec.toNat_or, BitVec.toNat_append, BitVec.toNat_ofNat]
    rw [Nat.mod_eq_of_lt (a := r) (by omega), Nat.mod_eq_of_lt (a := r) (by omega)]
    rfl
  rw [assemble, encode, hhdr]

theorem assemble_enc (x : Bits) : assemble (.enc x) = encode (.enc x) := rfl

theorem assemble_dec (x : Bits) : assemble (.dec x) = encode (.dec x) := rfl

/-- Settles O13: a NEW, ENC or DEC line assembles to its instruction's encoding, and `.cmd` takes any header and
payload. -/
theorem assemblerReachesEveryCommand : Obligations.AssemblerReachesEveryCommand := by
  refine ⟨fun r hr => ?_, fun x => ?_, fun x => ?_, fun c => ⟨.cmd c.hdr c.payload, rfl, rfl⟩⟩
  · rw [assemble_new (by omega)]
    exact decode_encode (new_wellFormed_iff.mpr (by omega))
  · rw [assemble_enc]
    exact decode_encode rfl
  · rw [assemble_dec]
    exact decode_encode rfl

/-- Settles O12: the decoder and the assembler evaluated on R71's six examples. -/
theorem workedHeadersDecode : Obligations.WorkedHeadersDecode :=
  ⟨rfl, rfl, rfl, rfl, ⟨_, rfl⟩, ⟨_, rfl⟩, rfl, rfl, rfl, rfl, rfl, rfl⟩

end Sys2Proof.Machine
end

section
/-!
PROOFS. Construction (40_construction.md): the column values, H, G and T for every `r ≥ 2`, and the NEW command.
-/

namespace Sys2Proof.Machine

/-! ## Elements of the matrices (R82, R84) -/

theorem unitVec_getD {w k : Nat} (i : Nat) (hk : k < w) : (unitVec w i).getD k false = decide (k = i) := by
  simp [unitVec, hk]

/-- Bit `i` of `x` as the spec writes it, `(x >> i) and 1`. -/
theorem testBit_eq_shiftRight_mod (x i : Nat) : x.testBit i = ((x >>> i) % 2 == 1) := by
  rw [Nat.testBit_eq_decide_div_mod_eq, Nat.shiftRight_eq_div_pow]
  rfl

/-- Row 0 holds the most significant bits of the values. -/
theorem entry_matrixOfColvals {r k : Nat} (cv : List Nat) (j : Nat) (hk : k < r) :
    entry (matrixOfColvals r cv) k j = ((cv.getD j 0 >>> (r - 1 - k)) % 2 == 1) := by
  rw [← col_getD, col_matrixOfColvals, ← testBit_eq_shiftRight_mod]
  simp [be, hk]

/-! ## The non-systematic matrix H0 (R82) -/

theorem initialColvals_getD {r j : Nat} (hj : j < codeN r) : (initialColvals r).getD j 0 = j + 1 := by
  simp [initialColvals, hj]

/-- Settles O18: H0 is the matrix of the values `1..n`, whose columns and elements the laws of `matrixOfColvals` give. -/
theorem nonSystematicColumns : Obligations.NonSystematicColumns := by
  refine fun r => ⟨(swapped_initial r).length_eq ▸ hasShape_matrixOfColvals r _, fun j hj => ⟨?_, fun k hk => ?_⟩⟩
  · rw [h0, col_matrixOfColvals, initialColvals_getD hj]
  · rw [h0, entry_matrixOfColvals _ _ hk, initialColvals_getD hj]

/-! ## The column values (R83, R87, R88) -/

/-- H's columns read back the values the swap loop leaves (R84). -/
theorem colval_eq_of_getElem? {r j v : Nat} (hr : 2 ≤ r) (h : (colvals r)[j]? = some v) : colval (hsys r) j = v := by
  obtain ⟨hj, -⟩ := List.getElem?_eq_some_iff.mp h
  rw [(swapped_colvals hr).length_eq] at hj
  rw [colval_hsys hr hj, List.getD_eq_getElem?_getD, h, Option.getD_some]

theorem colvals_getElem? {r j : Nat} (hr : 2 ≤ r) (hj : j < codeN r) :
    (colvals r)[j]? = some (colval (hsys r) j) := by
  rw [← (swapped_colvals hr).length_eq] at hj
  rw [colval_eq_of_getElem? hr (List.getElem?_eq_getElem hj), List.getElem?_eq_getElem hj]

/-- Position `n - 1 - i` holds parity bit `i` (R87). -/
theorem colval_parity {r i : Nat} (hr : 2 ≤ r) (hi : i < r) : colval (hsys r) (codeN r - 1 - i) = 2 ^ i :=
  colval_eq_of_getElem? hr ((swapped_colvals hr).parity i (List.mem_range.mpr hi))

theorem colval_power {r i : Nat} (hr : 2 ≤ r) (hi : i < r) (hne : 2 ^ i - 1 ≠ codeN r - 1 - i) :
    colval (hsys r) (2 ^ i - 1) = codeN r - i :=
  colval_eq_of_getElem? hr ((swapped_colvals hr).power i (List.mem_range.mpr hi) hne)

theorem colval_other {r j : Nat} (hr : 2 ≤ r) (hj : j < codeN r) (hparity : ∀ i, i < r → j ≠ codeN r - 1 - i)
    (hpower : ∀ i, i < r → j ≠ 2 ^ i - 1) : colval (hsys r) j = j + 1 :=
  colval_eq_of_getElem? hr ((swapped_colvals hr).other j hj (fun i hi => hparity i (List.mem_range.mp hi))
    fun i hi => hpower i (List.mem_range.mp hi))

/-- A position of both of R88's first two kinds is one swap's two positions at once, which happens only for
`r = 2, i = 1`: for `r ≥ 3` the powers `2^i` with `i < r` stay below `n - i`. -/
theorem swap_positions_eq {r i i' : Nat} (hr : 2 ≤ r) (hi : i < r) (hi' : i' < r)
    (h : 2 ^ i - 1 = codeN r - 1 - i') : r = 2 ∧ i = 1 ∧ i' = 1 := by
  obtain rfl := swap_positions_meet hr hi hi' h
  have hn := succ_lt_two_pow hr
  have hsum : 2 ^ r = 2 ^ i + 1 + i := by
    have := Nat.two_pow_pos i
    unfold codeN at h
    omega
  have hr2 : r = 2 := by
    by_contra hne
    obtain ⟨q, rfl⟩ : ∃ q, r = q + 1 := ⟨r - 1, by omega⟩
    have hq := succ_lt_two_pow (show 2 ≤ q by omega)
    have hle : 2 ^ i ≤ 2 ^ q := Nat.pow_le_pow_right (by decide) (by omega)
    rw [Nat.pow_succ] at hsum
    omega
  subst hr2
  interval_cases i
  · cases hsum
  · exact ⟨rfl, rfl, rfl⟩

/-- Settles O19: what the swaps leave at the three kinds of positions, read back from H's columns. -/
theorem columnValuesClosedForm : Obligations.ColumnValuesClosedForm := by
  intro r hr
  exact ⟨fun i hi => colval_parity hr hi, fun i hi hne => colval_power hr hi (hne i hi),
    fun j hj hparity hpower => colval_other hr hj hparity hpower, fun i i' hi hi' h => swap_positions_eq hr hi hi' h,
    (swapped_colvals hr).length_eq, fun j hj => colvals_getElem? hr hj⟩

/-- Settles O20: the same swaps are made in either order, and what they leave is fixed by which are made. -/
theorem swapOrderHasNoEffect : Obligations.SwapOrderHasNoEffect := by
  intro r order hr hperm
  have hswapped : Swapped r order (colvalsAfter r order) :=
    swapped_colvalsAfter hr (fun k hk => List.mem_range.mp (hperm.mem_iff.mp hk))
      (hperm.nodup_iff.mpr List.nodup_range)
  exact hswapped.unique (swapped_colvals hr) fun i => hperm.mem_iff

/-! ## The parity-check matrix (R84, R87) -/

/-- The last `r` columns of H are the identity. -/
theorem entry_hsys_parity {r k k' : Nat} (hr : 2 ≤ r) (hk : k < r) (hk' : k' < r) :
    entry (hsys r) k (codeM r + k') = decide (k = k') := by
  have hkl : k < (hsys r).length := (hasShape_hsys hr).1.symm ▸ hk
  rw [entry_eq_getElem hkl, List.getD_eq_getElem?_getD, ← List.getElem?_drop, hsys_row_drop hr hkl,
    ← List.getD_eq_getElem?_getD, unitVec_getD k hk', decide_eq_decide]
  exact eq_comm

/-- Settles O21: H is the matrix of the swapped column values, of which the last `r` are the powers of 2. -/
theorem parityCheckMatrixIsSystematic : Obligations.ParityCheckMatrixIsSystematic := by
  intro r hr
  exact ⟨hasShape_hsys hr, fun j hj => ⟨colval_hsys hr hj, fun k hk => entry_matrixOfColvals _ j hk⟩,
    fun k k' hk hk' => entry_hsys_parity hr hk hk', fun i hi => colval_parity hr hi⟩

/-! ## The generator matrix (R85) -/

theorem entry_gen_data {r i j : Nat} (hi : i < codeM r) (hj : j < codeM r) :
    entry (gen r) i j = decide (i = j) := by
  rw [← col_getD, col_gen_data hj, unitVec_getD j hi]

theorem entry_gen_parity {r i k : Nat} (hr : 2 ≤ r) (hi : i < codeM r) (hk : k < r) :
    entry (gen r) i (codeM r + k) = entry (hsys r) k i := by
  rw [← col_getD, col_gen_parity hr hk, List.getD_eq_getElem?_getD, List.getElem?_take_of_lt hi,
    ← List.getD_eq_getElem?_getD]
  rfl

/-- Settles O22: column by column, G is the identity and then H's rows cut to their first `m` elements. -/
theorem generatorMatrixEntries : Obligations.GeneratorMatrixEntries := by
  intro r hr
  exact ⟨hasShape_gen hr, fun i hi => ⟨fun j hj => entry_gen_data hi hj, fun k hk => entry_gen_parity hr hi hk⟩⟩

/-! ## The syndrome table (R86, R89) -/

theorem map_colval_range {r : Nat} (hr : 2 ≤ r) : (List.range (codeN r)).map (colval (hsys r)) = colvals r := by
  have hlen := (swapped_colvals hr).length_eq
  apply List.ext_getElem?
  intro j
  by_cases hj : j < codeN r
  · simp [hj, colvals_getElem? hr hj]
  · rw [List.getElem?_eq_none (by simpa using hj), List.getElem?_eq_none (by omega)]

/-- Settles O23: the columns read back the swapped values, a permutation of `1..n`, and the table inverts them. -/
theorem syndromeTableIsBijection : Obligations.SyndromeTableIsBijection := by
  intro r hr
  obtain ⟨hlen, hentry, hzero⟩ := tab_spec hr
  refine ⟨map_colval_range hr ▸ colvals_perm hr, hlen, hzero, fun j hj => ?_, fun v hv hle => ?_⟩
  · rw [colval_hsys hr hj]
    exact hentry j hj
  · obtain ⟨j, hj, hvalue, hhit⟩ := tab_hits hr hv hle
    exact ⟨j, hj, hhit, (colval_hsys hr hj).trans hvalue⟩

/-! ## Codewords have syndrome 0 (R94) -/

/-- VM of a unit vector is a row. -/
theorem vm_unitVec {M : Matrix} {a b i : Nat} (hM : hasShape a b M) (hi : i < a) :
    vm b (unitVec a i) M = M.getD i [] := by
  obtain ⟨hlen, hrow⟩ := hM
  have hil : i < M.length := hlen.symm ▸ hi
  rw [List.getD_eq_getElem _ _ hil]
  apply List.ext_getElem
  · simp [hrow _ (List.getElem_mem hil)]
  · intro j _ hj
    simp only [vm, List.getElem_map, List.getElem_range]
    rw [dot_unitVec a i _ (by simp [hlen]) hi, col_getD, entry_eq_getElem hil, List.getD_eq_getElem _ _ hj]

/-- Row `k` of H is `A_k` followed by a unit vector, and a codeword is `d` followed by the products `A_k · d`, so their
product is `A_k · d xor A_k · d`. -/
theorem mv_hsys_vm_gen {r : Nat} (hr : 2 ≤ r) {d : Bits} (hd : d.length = codeM r) :
    mv (hsys r) (vm (codeN r) d (gen r)) = List.replicate r false := by
  have hrows : (hsys r).length = r := (hasShape_hsys hr).1
  rw [vm_gen hr hd, List.eq_replicate_iff]
  refine ⟨by simp [hrows], List.forall_mem_map.mpr fun row hrow => ?_⟩
  obtain ⟨k, hk, rfl⟩ := List.getElem_of_mem hrow
  have htake : ((hsys r)[k].take (codeM r)).length = d.length := by
    rw [List.length_take, hsys_row_length hr hrow, hd, ← codeM_add hr]
    omega
  calc dot (hsys r)[k] (d ++ (hsys r).map fun row => dot d (row.take (codeM r)))
      = (dot ((hsys r)[k].take (codeM r)) d ^^
          dot (unitVec r k) ((hsys r).map fun row => dot d (row.take (codeM r)))) := by
        rw [← hsys_row_drop hr hk, ← dot_append htake, List.take_append_drop]
    _ = (dot d ((hsys r)[k].take (codeM r)) ^^ dot d ((hsys r)[k].take (codeM r))) := by
        rw [dot_unitVec r k _ (by simp [hrows]) (hrows ▸ hk), dot_comm]
        simp [hk]
    _ = false := Bool.xor_self _

/-- Settles O24: a row of G is the codeword of a unit vector. -/
theorem codewordsHaveZeroSyndrome : Obligations.CodewordsHaveZeroSyndrome := by
  intro r hr
  refine ⟨fun row hrow => ?_, fun i j hi hj => entry_gen_data hi hj, fun d hd => mv_hsys_vm_gen hr hd⟩
  obtain ⟨i, hi, rfl⟩ := List.getElem_of_mem hrow
  have him : i < codeM r := (hasShape_gen hr).1 ▸ hi
  rw [← List.getD_eq_getElem _ [] hi, ← vm_unitVec (hasShape_gen hr) him]
  exact mv_hsys_vm_gen hr (unitVec_length _ i)

/-! ## The NEW command (R90, R91) -/

/-- Settles O16: NEW installs what `construct` builds and answers OK. -/
theorem newInstallsConfiguration : Obligations.NewInstallsConfiguration :=
  fun _ _ h2 hle => execNew_installs h2 hle

/-- Settles O17: outside `2..RMAX`, NEW raises an error, which writes nothing but the response and the index. -/
theorem failedNewWritesNoState : Obligations.FailedNewWritesNoState :=
  fun _ _ h => execNew_fails h

/-! ## Two cores with the same `r` (R81) -/

theorem codeM_pos {r : Nat} (hr : 2 ≤ r) : 0 < codeM r := by
  have := succ_lt_two_pow hr
  unfold codeM codeN
  omega

theorem codeN_pos {r : Nat} (hr : 2 ≤ r) : 0 < codeN r :=
  (codeM_pos hr).trans_le (Nat.sub_le _ _)

theorem blocks_flatten {w : Nat} (hw : 0 < w) {x : Bits} (hx : x.length % w = 0) : (blocks w x).flatten = x := by
  refine block_induction hw (P := fun x => (blocks w x).flatten = x) ?_ (fun d y hd _ ih => ?_) x hx
  · rw [blocks_nil, List.flatten_nil]
  · rw [blocks_cons hw hd, List.flatten_cons, ih]

/-- A codeword has syndrome 0 and starts with its data. -/
theorem decodeBlock_encodeBlock {r : Nat} (hr : 2 ≤ r) {d : Bits} (hd : d.length = codeM r) :
    decodeBlock (construct r) (encodeBlock (construct r) d) = some d := by
  have hencode : encodeBlock (construct r) d = vm (codeN r) d (gen r) := rfl
  rw [hencode, decodeBlock_zero (by rw [mv_hsys_vm_gen hr hd, intBe_replicate_false]), vm_gen hr hd,
    List.take_left' hd]

/-- Decoding an encoded payload gives it back, block by block. -/
theorem decodeSeq_encodeSeq {r : Nat} (hr : 2 ≤ r) {x : Bits} (hx : x.length % codeM r = 0) :
    decodeSeq (construct r) (encodeSeq (construct r) x) = some x := by
  have hN : 0 < (construct r).N := codeN_pos hr
  have hblocks := decodeBlocks_map (blocks (codeM r) x) (encodeBlock (construct r)) id
    fun d hd => decodeBlock_encodeBlock hr (length_of_mem_blocks hd)
  rw [decodeSeq, encodeSeq, blocks_flatMap hN (encodeBlock_length _), construct_M, hblocks, List.flatMap_id,
    blocks_flatten (codeM_pos hr) hx]

/-- An encoded payload is a whole number of codewords. -/
theorem encodeSeq_length_mod (c : Configuration) (x : Bits) : (encodeSeq c x).length % c.N = 0 := by
  rw [encodeSeq, length_flatMap_const (encodeBlock_length c), Nat.mul_mod_left]

/-- Settles O49: both cores hold what `construct r` builds, under which decoding inverts encoding. -/
theorem equalParityOrdersInteroperate : Obligations.EqualParityOrdersInteroperate := by
  intro r s₁ s₂ t₁ t₂ x hr hle₁ hle₂ h₁ h₂ hx
  obtain rfl := eq_of_next (execNew_installs hr hle₁) h₁
  obtain rfl := eq_of_next (execNew_installs hr hle₂) h₂
  have hdec := decodeSeq_encodeSeq hr hx
  exact ⟨rfl, encodeSeq (construct r) x, _, _, exec_next_iff.mpr ⟨_, _, .encodes rfl hx, rfl⟩, rfl,
    exec_next_iff.mpr ⟨_, _, .decodes rfl (encodeSeq_length_mod _ x) hdec, rfl⟩, rfl⟩

end Sys2Proof.Machine
end

section
/-!
PROOFS. Matrix products (41_gf2_matrix_mult.md): the elements of VM and MV, their linearity, and the packed forms.
-/

namespace Sys2Proof.Machine

/-! ## VM (R101) -/

theorem vm_getElem? {b j : Nat} (v : Bits) (M : Matrix) (hj : j < b) : (vm b v M)[j]? = some (dot v (col M j)) := by
  simp [vm, hj]

/-- The product with a column, written with the elements of the matrix. -/
theorem dot_col {M : Matrix} {v : Bits} {a : Nat} (j : Nat) (hM : M.length = a) (hv : v.length = a) :
    dot v (col M j) = xorSum ((List.range a).map fun i => v.getD i false && entry M i j) := by
  simp only [dot_eq_xorSum_range v (col M j) a hv ((col_length M j).trans hM), col_getD]

theorem vm_replicate_false (a b : Nat) (M : Matrix) : vm b (List.replicate a false) M = List.replicate b false := by
  simp [vm, dot_replicate_false, List.map_const']

/-- VM is linear in its vector. -/
theorem vm_xorBits (b : Nat) (M : Matrix) {u v : Bits} (h : u.length = v.length) :
    vm b (xorBits u v) M = xorBits (vm b u M) (vm b v M) := by
  refine Eq.trans (List.map_congr_left fun j _ => dot_xorBits u v (col M j) h) ?_
  rw [vm, vm, xorBits, List.zipWith_map, List.zipWith_self]

/-- Settles O25: each element is the product with a column, and products with one column are linear. -/
theorem vectorMatrixProduct : Obligations.VectorMatrixProduct := by
  refine ⟨fun a b v M hM hv => ⟨vm_length b v M, fun j hj => ?_, vm_replicate_false a b M, fun i hi => vm_unitVec hM hi,
    fun u hu => vm_xorBits b M (hu.trans hv.symm)⟩, by decide⟩
  rw [vm_getElem? v M hj, dot_col j hM.1 hv]

/-! ## MV (R102) -/

theorem mv_getElem? {M : Matrix} {k : Nat} (v : Bits) (hk : k < M.length) : (mv M v)[k]? = some (dot M[k] v) := by
  simp [mv, hk]

/-- The product with a row, written with the elements of the matrix. -/
theorem dot_row {M : Matrix} {v : Bits} {a b k : Nat} (hM : hasShape a b M) (hk : k < M.length) (hv : v.length = b) :
    dot M[k] v = xorSum ((List.range b).map fun j => entry M k j && v.getD j false) := by
  simp only [dot_eq_xorSum_range M[k] v b (hasShape_getElem hM hk) hv, entry_eq_getElem hk]

theorem mv_replicate_false (M : Matrix) (b : Nat) : mv M (List.replicate b false) = List.replicate M.length false := by
  simp [mv, dot_comm _ (List.replicate b false), dot_replicate_false, List.map_const']

/-- Column `k` of the transpose is row `k`. -/
theorem col_transpose {M : Matrix} {a b k : Nat} (hM : hasShape a b M) (hk : k < M.length) :
    col (transpose b M) k = M[k] := by
  have hrow := hasShape_getElem hM hk
  apply List.ext_getElem
  · simp [transpose, hrow]
  · intro j _ hj
    have hentry : (col M j).getD k false = M[k][j] := by
      rw [col_getD, entry_eq_getElem hk, List.getD_eq_getElem _ _ hj]
    simpa [transpose, col] using hentry

theorem mv_eq_vm_transpose {M : Matrix} {a b : Nat} (hM : hasShape a b M) (v : Bits) :
    mv M v = vm a v (transpose b M) := by
  apply List.ext_getElem
  · simp [hM.1]
  · intro k hk _
    have hkM : k < M.length := by simpa using hk
    simp only [mv, vm, List.getElem_map, List.getElem_range]
    rw [col_transpose hM hkM, dot_comm]

/-- Settles O26: each element is the product with a row, and products with one row are linear. -/
theorem matrixVectorProduct : Obligations.MatrixVectorProduct := by
  refine ⟨fun a b v M hM hv => ?_, by decide⟩
  have hlen : M.length = a := hM.1
  refine ⟨by rw [mv_length, hlen], fun k hk => ?_, by rw [mv_replicate_false, hlen],
    fun j hj => ⟨mv_unitVec hM hj, congrArg intBe (mv_unitVec hM hj)⟩, fun u hu => mv_xorBits M u v (hu.trans hv.symm),
    mv_eq_vm_transpose hM v⟩
  have hkM : k < M.length := hlen.symm ▸ hk
  rw [mv_getElem? v hkM, dot_row hM hkM hv]

/-! ## The packed products (R104) -/

theorem xorBits_assoc (u v w : Bits) : xorBits (xorBits u v) w = xorBits u (xorBits v w) := by
  apply List.ext_getElem
  · simp [Nat.min_assoc]
  · intro i _ _
    simp [xorBits]

theorem xorBits_comm (u v : Bits) : xorBits u v = xorBits v u :=
  List.zipWith_comm_of_comm Bool.xor_comm

/-- A row whose vector bit is 0 adds nothing. -/
theorem vm_cons_false (b : Nat) (v row : Bits) (M : Matrix) : vm b (false :: v) (row :: M) = vm b v M := by
  refine List.map_congr_left fun j _ => ?_
  rw [col, List.map_cons, dot_cons, Bool.false_and, Bool.false_xor, col]

/-- A row whose vector bit is 1 is added. -/
theorem vm_cons_true {b : Nat} {row : Bits} (hrow : row.length = b) (v : Bits) (M : Matrix) :
    vm b (true :: v) (row :: M) = xorBits row (vm b v M) := by
  apply List.ext_getElem
  · simp [hrow]
  · intro j hj _
    have hjr : j < row.length := by simpa [hrow] using hj
    simp [vm, col, xorBits, hjr]

/-- The packed sum started at `acc` adds VM to `acc`. -/
theorem foldl_selected_rows {b : Nat} {M : Matrix} (hM : ∀ row ∈ M, row.length = b) {v : Bits}
    (hv : v.length = M.length) {acc : Bits} (hacc : acc.length = b) :
    (List.zip v M).foldl (fun acc p => if p.1 then xorBits acc p.2 else acc) acc = xorBits acc (vm b v M) := by
  induction M generalizing v acc with
  | nil =>
    obtain rfl := List.eq_nil_of_length_eq_zero hv
    have hzero : vm b [] [] = List.replicate b false := vm_replicate_false 0 b []
    rw [hzero, xorBits_comm, xorBits_false b acc hacc, List.zip_nil_left, List.foldl_nil]
  | cons row M ih =>
    obtain ⟨hrow, hM⟩ := List.forall_mem_cons.mp hM
    obtain ⟨x, v, rfl⟩ := List.exists_cons_of_length_eq_add_one hv
    have hlen : v.length = M.length := Nat.succ.inj hv
    rw [List.zip_cons_cons, List.foldl_cons]
    cases x with
    | false =>
      rw [vm_cons_false]
      exact ih hM hlen hacc
    | true =>
      have hsum : (xorBits acc row).length = b := by simp [hacc, hrow]
      rw [vm_cons_true hrow, ← xorBits_assoc]
      exact ih hM hlen hsum

theorem vmPacked_eq_vm {a b : Nat} {M : Matrix} (hM : hasShape a b M) {v : Bits} (hv : v.length = a) :
    vmPacked b v M = vm b v M := by
  rw [vmPacked, foldl_selected_rows hM.2 (hv.trans hM.1.symm) List.length_replicate, xorBits_false b _ (vm_length b v M)]

/-- A sum over GF(2) is the parity of the number of its ones. -/
theorem xorSum_eq_parity (bs : Bits) : xorSum bs = decide (bs.count true % 2 = 1) := by
  induction bs with
  | nil => rfl
  | cons x bs ih =>
    cases x with
    | false => rw [xorSum_cons, ih, Bool.false_xor]; simp
    | true =>
      rw [xorSum_cons, ih, List.count_cons_self, Bool.true_xor, ← decide_not]
      exact decide_eq_decide.mpr (by omega)

theorem mvPacked_eq_mv (M : Matrix) (v : Bits) : mvPacked M v = mv M v :=
  List.map_congr_left fun _ _ => (xorSum_eq_parity _).symm

/-- Settles O27: the sum of the selected rows is VM, and a parity of ones is a sum over GF(2). -/
theorem packedProductsAgree : Obligations.PackedProductsAgree :=
  fun _ _ M hM => ⟨fun _ hv => vmPacked_eq_vm hM hv, fun v _ => mvPacked_eq_mv M v⟩

end Sys2Proof.Machine
end

section
/-!
PROOFS. The encoder (42_hamming_encoder.md): the systematic codeword, the ENC command, and the independence of blocks.
-/

namespace Sys2Proof.Machine

/-! ## One block (R121, R122) -/

/-- encode_block is the product with the stored generator matrix. -/
theorem encodeBlock_eq_vm (c : Configuration) (d : Bits) : encodeBlock c d = vm c.N d c.G := rfl

/-- A codeword starts with its data. -/
theorem encodeBlock_data {r i : Nat} (hr : 2 ≤ r) {d : Bits} (hd : d.length = codeM r) (hi : i < codeM r) :
    (encodeBlock (construct r) d)[i]? = d[i]? := by
  rw [encodeBlock_eq_vm, construct_N, construct_G, vm_gen hr hd, List.getElem?_append_left (hd.symm ▸ hi)]

/-- Parity bit `k` is the product with column `m + k` of G, which is row `k` of H cut to its first `m` elements. -/
theorem encodeBlock_parity {r k : Nat} (hr : 2 ≤ r) {d : Bits} (hd : d.length = codeM r) (hk : k < r) :
    (encodeBlock (construct r) d)[codeM r + k]? =
      some (xorSum ((List.range (codeM r)).map fun i => d.getD i false && entry (hsys r) k i)) := by
  have hj : codeM r + k < codeN r := codeM_add hr ▸ Nat.add_lt_add_left hk _
  rw [encodeBlock_eq_vm, construct_N, construct_G, vm_getElem? d (gen r) hj, dot_col _ (hasShape_gen hr).1 hd]
  refine congrArg (some ∘ xorSum) (List.map_congr_left fun i hi => ?_)
  rw [entry_gen_parity hr (List.mem_range.mp hi) hk]

/-- Settles O28: a legal configuration is the one its parity order builds, whose G is the identity and then H's rows. -/
theorem codewordIsSystematic : Obligations.CodewordIsSystematic := by
  intro p c d hc hd
  obtain ⟨r, hr, -, rfl⟩ := exists_construct hc
  exact ⟨encodeBlock_length _ d, fun i hi => encodeBlock_data hr hd hi, fun k hk => encodeBlock_parity hr hd hk⟩

/-! ## The ENC command (R123, R124, R125) -/

theorem encodeSeq_length (c : Configuration) (x : Bits) : (encodeSeq c x).length = x.length / c.M * c.N := by
  rw [encodeSeq, length_flatMap_const (encodeBlock_length c), blocks_length]

/-- Output block `b` is the codeword of input block `b`. -/
theorem slice_encodeSeq {c : Configuration} {x : Bits} {b : Nat} (hb : b < x.length / c.M) :
    slice (encodeSeq c x) (b * c.N) ((b + 1) * c.N) = encodeBlock c (slice x (b * c.M) ((b + 1) * c.M)) := by
  have hblock : b < (blocks c.M x).length := (blocks_length c.M x).symm ▸ hb
  rw [encodeSeq, slice_flatMap (encodeBlock_length c) _ b hblock, blocks_getElem hblock]

/-- Settles O29: ENC answers `encodeSeq`, whose length and blocks are those of the codewords. -/
theorem encRespondsWithCodewords : Obligations.EncRespondsWithCodewords :=
  fun _ c x hc hl => ⟨encodeSeq c x, execEnc_ok hc hl, encodeSeq_length c x, fun _ hb => slice_encodeSeq hb⟩

/-- Settles O30: both errors write nothing but the response and the index. -/
theorem encErrorsReturnNoOutput : Obligations.EncErrorsReturnNoOutput :=
  fun _ x => ⟨fun hc => execEnc_notConfigured x hc, fun _ hc hl => execEnc_invalidLength hc hl⟩

/-! ## Blocks on their own (R123, 45_hamming_decoder.md R181) -/

/-- A width of 0 cuts no block, so `blocks_append` holds of every width. -/
theorem blocks_append_anyWidth {w : Nat} {x : Bits} (hx : x.length % w = 0) (y : Bits) :
    blocks w (x ++ y) = blocks w x ++ blocks w y := by
  rcases Nat.eq_zero_or_pos w with rfl | hw
  · simp [blocks]
  · exact blocks_append hw hx

theorem encodeSeq_append {c : Configuration} {x : Bits} (hx : x.length % c.M = 0) (y : Bits) :
    encodeSeq c (x ++ y) = encodeSeq c x ++ encodeSeq c y := by
  rw [encodeSeq, blocks_append_anyWidth hx, List.flatMap_append, ← encodeSeq, ← encodeSeq]

theorem decodeSeq_append {c : Configuration} {x y out out' : Bits} (hx : x.length % c.N = 0)
    (hout : decodeSeq c x = some out) (hout' : decodeSeq c y = some out') :
    decodeSeq c (x ++ y) = some (out ++ out') := by
  rw [decodeSeq, blocks_append_anyWidth hx]
  exact decodeBlocks_append c _ _ out out' hout hout'

/-- Settles O40: a concatenation at a block boundary has the blocks of both parts, each coded on its own. -/
theorem blocksAreIndependent : Obligations.BlocksAreIndependent :=
  fun _ _ y => ⟨fun hx => encodeSeq_append hx y, fun _ _ hx hout hout' => decodeSeq_append hx hout hout'⟩

end Sys2Proof.Machine
end

section
/-!
PROOFS. The syndrome table (43_syndrome_lookup_table.md): what LOOKUP answers, at a column of H and for a single error.
-/

namespace Sys2Proof.Machine

/-! ## LOOKUP (R141, R142) -/

theorem lookup_zero (T : SyndromeTable) {s : Bits} (hs : intBe s = 0) :
    lookup T s = some { hit := false, pos := 0 } := if_pos hs

theorem lookup_hit {T : SyndromeTable} {s : Bits} {q : Nat} (hs : intBe s ≠ 0) (hT : T[intBe s]? = some (some q)) :
    lookup T s = some { hit := true, pos := q } := by
  rw [lookup, if_neg hs, List.getD_eq_getElem?_getD, hT, Option.getD_some, Option.map_some]

/-- The table inverts H's columns (R140). -/
theorem lookup_col_hsys {r q : Nat} (hr : 2 ≤ r) (hq : q < codeN r) :
    lookup (tab r) (col (hsys r) q) = some { hit := true, pos := q } := by
  obtain ⟨-, hentry, -⟩ := tab_spec hr
  refine lookup_hit (intBe_col_ne_zero hr hq) ?_
  rw [← colval, colval_hsys hr hq]
  exact hentry q hq

/-- Every nonzero syndrome is a column of H, because the column values are all of `1..n` (40_construction.md R89). -/
theorem exists_col_hsys_eq {r : Nat} (hr : 2 ≤ r) {s : Bits} (hlen : s.length = r) (hs : intBe s ≠ 0) :
    ∃ q, q < codeN r ∧ col (hsys r) q = s := by
  have hlt : intBe s < 2 ^ r := hlen ▸ intBe_lt s
  obtain ⟨q, hq, hvalue⟩ := colvals_surj hr (Nat.one_le_iff_ne_zero.mpr hs) (Nat.le_sub_one_of_lt hlt)
  refine ⟨q, hq, ?_⟩
  rw [col_hsys, hvalue, ← hlen, be_intBe]

/-- Settles O31: a nonzero syndrome is a column of H, and the table holds that column's position. -/
theorem lookupHitsEveryNonzeroSyndrome : Obligations.LookupHitsEveryNonzeroSyndrome := by
  intro p c s hc hlen
  obtain ⟨r, hr, -, rfl⟩ := exists_construct hc
  refine ⟨fun hs => lookup_zero _ hs, fun hs => ?_⟩
  obtain ⟨q, hq, rfl⟩ := exists_col_hsys_eq hr hlen hs
  exact ⟨q, hq, lookup_col_hsys hr hq, rfl⟩

/-! ## A single error (R143) -/

/-- Flipping bit `q` of a block adds column `q` to its syndrome. -/
theorem mv_flipBit {M : Matrix} {a b q : Nat} (hM : hasShape a b M) {v : Bits} (hv : v.length = b) (hq : q < b) :
    mv M (flipBit v q) = xorBits (mv M v) (col M q) := by
  rw [flipBit_eq_xorBits hv hq, mv_xorBits M v _ (hv.trans (unitVec_length b q).symm), mv_unitVec hM hq]

/-- With one bit flipped, a codeword's syndrome is that bit's column. -/
theorem mv_flipBit_codeword {M : Matrix} {a b q : Nat} (hM : hasShape a b M) {cw : Bits} (hlen : cw.length = b)
    (hq : q < b) (hcw : mv M cw = List.replicate a false) : mv M (flipBit cw q) = col M q := by
  rw [mv_flipBit hM hlen hq, hcw, xorBits_false a _ ((col_length M q).trans hM.1)]

/-- Settles O32: the syndrome is the flipped bit's column, at which LOOKUP answers the bit's position. -/
theorem singleErrorIsLocated : Obligations.SingleErrorIsLocated := by
  intro p c cw q hc hlen hq hcw
  obtain ⟨r, hr, -, rfl⟩ := exists_construct hc
  have hsyndrome : mv (hsys r) (flipBit cw q) = col (hsys r) q := mv_flipBit_codeword (hasShape_hsys hr) hlen hq hcw
  exact ⟨hsyndrome, hsyndrome.symm ▸ lookup_col_hsys hr hq⟩

end Sys2Proof.Machine
end

section
/-!
PROOFS. The corrector (44_bit_error_corrector.md): CORRECT flips the bit the table names, and a flip changes one bit.
-/

namespace Sys2Proof.Machine

/-! ## What a flip changes -/

theorem flipBit_getD_self {x : Bits} {q : Nat} (hq : q < x.length) : (flipBit x q).getD q false = !x.getD q false := by
  rw [flipBit, List.getD_eq_getElem?_getD, List.getElem?_set_self hq, Option.getD_some]

theorem flipBit_getElem?_ne {x : Bits} {q j : Nat} (hj : j ≠ q) : (flipBit x q)[j]? = x[j]? :=
  List.getElem?_set_ne hj.symm

/-! ## CORRECT (R161) -/

theorem correct_zero (T : SyndromeTable) (block : Bits) {s : Bits} (hs : intBe s = 0) :
    correct T block s = some block := if_pos hs

theorem correct_hit {T : SyndromeTable} {s : Bits} {q : Nat} (block : Bits) (hs : intBe s ≠ 0)
    (hT : T[intBe s]? = some (some q)) : correct T block s = some (flipBit block q) := by
  rw [correct, if_neg hs, lookup_hit hs hT, Option.map_some]

/-- Settles O33: a legal table holds a position inside the block for every nonzero syndrome, and CORRECT flips that bit
alone. -/
theorem correctorFlipsExactlyNamedBit : Obligations.CorrectorFlipsExactlyNamedBit := by
  intro p c block s hc hblock hlen
  refine ⟨fun hs => correct_zero c.T block hs, fun hs => ?_⟩
  obtain ⟨-, -, -, -, htable⟩ := legalConfigurationSizes p c hc
  obtain ⟨q, hq, hentry⟩ := htable (intBe s) (Nat.one_le_iff_ne_zero.mpr hs) (hlen ▸ intBe_lt s)
  have hq_block : q < block.length := hblock.symm ▸ hq
  exact ⟨q, flipBit block q, hq, hentry, correct_hit block hs hentry, flipBit_length block q,
    flipBit_getD_self hq_block, fun _ hj => flipBit_getElem?_ne hj⟩

end Sys2Proof.Machine
end

section
/-!
PROOFS. The decoder (45_hamming_decoder.md): what decode_block answers for any block, and the DEC command.
-/

namespace Sys2Proof.Machine

/-! ## One block, whatever errors it holds (R182, R183) -/

/-- The first `m` bits of the block, with the bit that the table names for its nonzero syndrome flipped. -/
def IsCorrectedData (c : Configuration) (block d : Bits) : Prop :=
  (intBe (mv c.H block) = 0 → d = block.take c.M) ∧
    (intBe (mv c.H block) ≠ 0 → ∃ q, q < c.N ∧ c.T[intBe (mv c.H block)]? = some (some q) ∧
      d = (flipBit block q).take c.M)

/-- A legal table holds a position for every nonzero syndrome, so decode_block answers every block. -/
theorem exists_decodeBlock_isCorrectedData {c : Configuration} {p : Params} (hc : c.Legal p) (block : Bits) :
    ∃ d, decodeBlock c block = some d ∧ IsCorrectedData c block d := by
  obtain ⟨hH, -, -, -, htable⟩ := legalConfigurationSizes p c hc
  by_cases hs : intBe (mv c.H block) = 0
  · obtain ⟨r, -, -, rfl⟩ := exists_construct hc
    exact ⟨_, decodeBlock_zero hs, fun _ => rfl, absurd hs⟩
  · have hlt : intBe (mv c.H block) < 2 ^ c.r := by
      simpa only [mv_length, hH.1] using intBe_lt (mv c.H block)
    obtain ⟨q, hq, hentry⟩ := htable _ (Nat.one_le_iff_ne_zero.mpr hs) hlt
    exact ⟨_, decodeBlock_hit hs (lookup_hit hs hentry), fun h => absurd h hs, fun _ => ⟨q, hq, hentry, rfl⟩⟩

theorem IsCorrectedData.length_eq {c : Configuration} {block d : Bits} (h : IsCorrectedData c block d)
    (hblock : block.length = c.N) : d.length = c.M := by
  obtain ⟨hzero, hhit⟩ := h
  have hle : c.M ≤ c.N := Nat.sub_le _ _
  by_cases hs : intBe (mv c.H block) = 0
  · rw [hzero hs, List.length_take, hblock, Nat.min_eq_left hle]
  · obtain ⟨q, -, -, rfl⟩ := hhit hs
    rw [List.length_take, flipBit_length, hblock, Nat.min_eq_left hle]

/-! ## The DEC command (R181, R184, R185) -/

/-- `length_flatMap_const` where only the elements of the list have outputs of one width. -/
theorem length_flatMap_of_mem {α : Type} {l : List α} {f : α → Bits} {n : Nat} (hf : ∀ a ∈ l, (f a).length = n) :
    (l.flatMap f).length = l.length * n := by
  rw [List.length_flatMap, List.map_congr_left hf, List.map_const', List.sum_replicate_nat]

/-- `slice_flatMap` where only the elements of the list have outputs of one width. -/
theorem slice_flatMap_of_mem {α : Type} {l : List α} {f : α → Bits} {n b : Nat} (hf : ∀ a ∈ l, (f a).length = n)
    (hb : b < l.length) : slice (l.flatMap f) (b * n) ((b + 1) * n) = f l[b] := by
  have h := slice_flatMap (f := f ∘ Subtype.val) (fun a => hf a.1 a.2) l.attach b (by rwa [List.length_attach])
  rw [Function.comp_def, ← List.flatMap_map, List.attach_map_subtype_val] at h
  simpa using h

/-- Settles O34: every block is decoded to its corrected data, and output block `b` is the data of block `b`. -/
theorem decRespondsWithCorrectedData : Obligations.DecRespondsWithCorrectedData := by
  intro s c x hcfg hc hx
  choose data hdecode hdata using exists_decodeBlock_isCorrectedData hc
  have hlen : ∀ block ∈ blocks c.N x, (data block).length = c.M :=
    fun block hb => (hdata block).length_eq (length_of_mem_blocks hb)
  have hout : decodeSeq c x = some ((blocks c.N x).flatMap data) := by
    rw [decodeSeq, ← decodeBlocks_map (blocks c.N x) id data fun block _ => hdecode block, List.map_id]
  refine ⟨_, execDec_ok hcfg hx hout, by rw [length_flatMap_of_mem hlen, blocks_length], fun b hb => ?_⟩
  have hblock : b < (blocks c.N x).length := (blocks_length c.N x).symm ▸ hb
  rw [slice_flatMap_of_mem hlen hblock, blocks_getElem hblock]
  exact hdata _

/-- Settles O35: both errors write nothing but the response and the index. -/
theorem decErrorsReturnNoOutput : Obligations.DecErrorsReturnNoOutput :=
  fun _ x => ⟨fun hc => execDec_notConfigured x hc, fun _ hc hl => execDec_invalidLength hc hl⟩

/-! ## Error patterns (R186) -/

/-- Adding a codeword does not change the syndrome. -/
theorem mv_xorBits_codeword {M : Matrix} {cw e : Bits} {a : Nat} (hM : M.length = a) (hlen : cw.length = e.length)
    (hcw : mv M cw = List.replicate a false) : mv M (xorBits cw e) = mv M e := by
  rw [mv_xorBits M cw e hlen, hcw, xorBits_false a _ ((mv_length M e).trans hM)]

/-- Settles O36: the syndrome is linear and 0 on the codeword, and a block of syndrome 0 is not corrected. -/
theorem undetectedErrorsPassThrough : Obligations.UndetectedErrorsPassThrough := by
  intro p c cw e hc hcwlen helen hcw
  obtain ⟨r, hr, -, rfl⟩ := exists_construct hc
  have hsyndrome : mv (hsys r) (xorBits cw e) = mv (hsys r) e :=
    mv_xorBits_codeword (hasShape_hsys hr).1 (hcwlen.trans helen.symm) hcw
  refine ⟨hsyndrome, fun he => decodeBlock_zero ?_⟩
  rw [hsyndrome, ← construct_H, he, intBe_replicate_false]

/-! ## At most one error in a block (R187, R188) -/

theorem encodeBlock_take {r : Nat} (hr : 2 ≤ r) {d : Bits} (hd : d.length = codeM r) :
    (encodeBlock (construct r) d).take (codeM r) = d := by
  rw [encodeBlock_eq_vm, construct_N, construct_G, vm_gen hr hd, List.take_left' hd]

/-- The syndrome of a codeword with bit `q` flipped is column `q` of H, at which the table names `q`; the second flip
undoes the first. -/
theorem decodeBlock_flipBit_encodeBlock {r q : Nat} (hr : 2 ≤ r) {d : Bits} (hd : d.length = codeM r)
    (hq : q < codeN r) : decodeBlock (construct r) (flipBit (encodeBlock (construct r) d) q) = some d := by
  have hlen : (encodeBlock (construct r) d).length = codeN r := encodeBlock_length _ d
  have hsyndrome : mv (hsys r) (flipBit (encodeBlock (construct r) d) q) = col (hsys r) q :=
    mv_flipBit_codeword (hasShape_hsys hr) hlen hq (mv_hsys_vm_gen hr hd)
  have hlookup := lookup_col_hsys hr hq
  have hne := intBe_col_ne_zero hr hq
  rw [← hsyndrome] at hlookup hne
  rw [decodeBlock_hit hne hlookup, flipBit_flipBit (hlen.symm ▸ hq), construct_M, encodeBlock_take hr hd]

/-- Settles O38: a legal configuration is the one its parity order builds, which corrects every single error. -/
theorem singleErrorBlockIsCorrected : Obligations.SingleErrorBlockIsCorrected := by
  intro p c d q hc hd hq
  obtain ⟨r, hr, -, rfl⟩ := exists_construct hc
  exact decodeBlock_flipBit_encodeBlock hr hd hq

/-- The received block is the sent one, or the sent one with one of its `n` bits flipped. -/
def AtMostOneError (n : Nat) (sent received : Bits) : Prop :=
  received = sent ∨ ∃ q, q < n ∧ received = flipBit sent q

theorem decodeBlock_of_atMostOneError {r : Nat} (hr : 2 ≤ r) {d block : Bits} (hd : d.length = codeM r)
    (h : AtMostOneError (codeN r) (encodeBlock (construct r) d) block) : decodeBlock (construct r) block = some d := by
  rcases h with rfl | ⟨q, hq, rfl⟩
  · exact decodeBlock_encodeBlock hr hd
  · exact decodeBlock_flipBit_encodeBlock hr hd hq

/-- Block `b` of an encoded payload is the codeword of data block `b`, so decoding block by block gives the payload. -/
theorem decodeSeq_of_one_error_per_block {r : Nat} (hr : 2 ≤ r) {x received : Bits} (hx : x.length % codeM r = 0)
    (hlen : received.length = (encodeSeq (construct r) x).length)
    (h : ∀ b, b < (encodeSeq (construct r) x).length / codeN r → AtMostOneError (codeN r)
      (slice (encodeSeq (construct r) x) (b * codeN r) ((b + 1) * codeN r))
      (slice received (b * codeN r) ((b + 1) * codeN r))) :
    decodeSeq (construct r) received = some x := by
  have hcount : (encodeSeq (construct r) x).length / codeN r = x.length / codeM r := by
    rw [encodeSeq_length, construct_N, construct_M, Nat.mul_div_cancel _ (codeN_pos hr)]
  have hsame : (blocks (codeN r) received).length = (blocks (codeM r) x).length := by
    rw [blocks_length, blocks_length, hlen, hcount]
  rw [decodeSeq, construct_N, decodeBlocks_getElem _ (blocks (codeM r) x) hsame, blocks_flatten (codeM_pos hr) hx]
  intro b hb hb'
  refine decodeBlock_of_atMostOneError hr (length_of_mem_blocks (List.getElem_mem hb')) ?_
  rw [blocks_length] at hb'
  have herror := h b (hcount.symm ▸ hb')
  rwa [← construct_N r, slice_encodeSeq hb', ← blocks_getElem, ← blocks_getElem] at herror

/-- Settles O37: ENC leaves the configuration in force, under which decoding inverts encoding. -/
theorem encThenDecReturnsData : Obligations.EncThenDecReturnsData := by
  intro s c x hcfg hc hx
  obtain ⟨r, hr, -, rfl⟩ := exists_construct hc
  exact ⟨encodeSeq (construct r) x, _, _, execEnc_ok hcfg hx, rfl,
    execDec_ok hcfg (encodeSeq_length_mod _ x) (decodeSeq_encodeSeq hr hx), rfl⟩

/-- Settles O39: ENC's response is the encoded payload, of which every received block is a block with at most one
error. -/
theorem oneErrorPerBlockIsCorrected : Obligations.OneErrorPerBlockIsCorrected := by
  intro s t c x y received hcfg hc hx henc hresponse hlen herrors
  obtain ⟨r, hr, -, rfl⟩ := exists_construct hc
  obtain rfl := eq_of_next (execEnc_ok hcfg hx) henc
  obtain ⟨-, rfl⟩ := Response.mk.inj (List.singleton_inj.mp (List.append_cancel_left hresponse))
  exact execDec_ok hcfg (hlen ▸ encodeSeq_length_mod _ x) (decodeSeq_of_one_error_per_block hr hx hlen herrors)

end Sys2Proof.Machine
end

section
/-!
PROOFS. Exceptions (60_exceptions.md): the order of the checks, what a step refuses, and a run with a Refused command.
-/

namespace Sys2Proof.Machine

/-! ## The command step in the order of its checks (R210) -/

/-- Settles O4: LMAX admits the payload, so the step decodes and performs. -/
theorem stepPerformsDecodedCommand : Obligations.StepPerformsDecodedCommand := by
  intro s c rest i hh hl hd
  rw [step_command hh hl, hd]
  rfl

/-- The LMAX check comes first, also for a command that a reset cuts off (R212). -/
theorem step_overLong {s : State} {c : Command} {rest : List HostEvent}
    (hh : s.host = .command c :: rest ∨ s.host = .resetDuring c :: rest)
    (hl : s.params.overLong c.payload.length = true) : step s = .refused (.payloadTooLong c.payload.length) := by
  rcases hh with hh | hh
  · have hfetch : fetch s = .tooLong c.payload.length := (fetch_command hh).trans (accept_tooLong hl)
    rw [step, hfetch]
  · rw [step, fetch_resetDuring hh, if_pos hl]

theorem step_reserved {s : State} {c : Command} {rest : List HostEvent} (hh : s.host = .command c :: rest)
    (hl : s.params.overLong c.payload.length = false) (hc : Reserved c) :
    step s = .next ((s.withHost rest).emit (response .illegalCommandError [])) := by
  obtain ⟨hreserved, hstep⟩ := illegalCommandsAreExactlyReserved c
  obtain ⟨why, hd⟩ := hreserved.mpr hc
  exact hstep s rest why hh hl hd

theorem decode_new {c : Command} (hop : c.hdr.toNat / 4096 = 1) (hlen : c.payload.length = 0) :
    decode c = .ok (.new (c.hdr.toNat % 4096)) := by
  simp [decode_toNat, hop, hlen]

theorem decode_enc {c : Command} (hop : c.hdr.toNat / 4096 = 2) (harg : c.hdr.toNat % 4096 = 0) :
    decode c = .ok (.enc c.payload) := by
  simp [decode_toNat, hop, harg]

theorem decode_dec {c : Command} (hop : c.hdr.toNat / 4096 = 3) (harg : c.hdr.toNat % 4096 = 0) :
    decode c = .ok (.dec c.payload) := by
  simp [decode_toNat, hop, harg]

/-- A legal configuration decodes every block of a payload, so the payload. -/
theorem exists_decodeSeq {c : Configuration} {p : Params} (hc : c.Legal p) (x : Bits) :
    ∃ out, decodeSeq c x = some out := by
  choose data hdecode _ using exists_decodeBlock_isCorrectedData hc
  have hout := decodeBlocks_map (blocks c.N x) id data fun block _ => hdecode block
  rw [List.map_id] at hout
  exact ⟨_, hout⟩

/-- Settles O6: the header's OP and ARG and the length fix what the decoder answers, the meaning the rest. -/
theorem stepFollowsCheckOrder : Obligations.StepFollowsCheckOrder := by
  intro s c rest hh hlegal op arg len answer
  split
  next hl => exact step_overLong (.inl hh) hl
  next hadmits =>
    have hl : s.params.overLong c.payload.length = false := Bool.eq_false_iff.mpr hadmits
    have hperform := fun i => stepPerformsDecodedCommand s c rest i hh hl
    split_ifs with hnew hlen hr henc harg hdec harg
    · exact step_reserved hh hl (.inr (.inl ⟨hnew, List.ne_nil_of_length_pos (Nat.pos_of_ne_zero hlen)⟩))
    · exact (hperform _ (decode_new hnew (not_not.mp hlen))).trans (execNew_fails hr)
    · obtain ⟨h2, hle⟩ := not_or.mp hr
      exact (hperform _ (decode_new hnew (not_not.mp hlen))).trans (execNew_installs (not_lt.mp h2) (not_lt.mp hle))
    · exact step_reserved hh hl (.inr (.inr ⟨.inl henc, harg⟩))
    · have hstep := hperform _ (decode_enc henc (not_not.mp harg))
      split
      next hcfg => exact hstep.trans (execEnc_notConfigured _ hcfg)
      next g hcfg =>
        split_ifs with hmod
        · exact hstep.trans (execEnc_invalidLength hcfg hmod)
        · exact hstep.trans (execEnc_ok hcfg (not_not.mp hmod))
    · exact step_reserved hh hl (.inr (.inr ⟨.inr hdec, harg⟩))
    · have hstep := hperform _ (decode_dec hdec (not_not.mp harg))
      split
      next hcfg => exact hstep.trans (execDec_notConfigured _ hcfg)
      next g hcfg =>
        split_ifs with hmod
        · exact hstep.trans (execDec_invalidLength hcfg hmod)
        · obtain ⟨out, hout⟩ := exists_decodeSeq (hlegal g hcfg) c.payload
          exact ⟨out, hout, hstep.trans (execDec_ok hcfg (not_not.mp hmod) hout)⟩
    · exact step_reserved hh hl (.inl (by omega))

/-! ## What a step refuses (R212) -/

theorem overLong_of_step_refused {s : State} {why : Refusal} (h : step s = .refused why) :
    ∃ c rest, (s.host = .command c :: rest ∨ s.host = .resetDuring c :: rest) ∧
      s.params.overLong c.payload.length = true := by
  rcases hh : s.host with _ | ⟨e, rest⟩
  · cases (coreWaitsForHost s hh).symm.trans h
  cases e with
  | reset => rw [step, fetch_reset hh] at h; cases h
  | resetDuring c =>
    refine ⟨c, rest, .inr rfl, not_not.mp fun hl => ?_⟩
    rw [step, fetch_resetDuring hh, if_neg hl] at h
    cases h
  | command c =>
    refine ⟨c, rest, .inl rfl, not_not.mp fun hl => ?_⟩
    rw [step_command hh (Bool.eq_false_iff.mpr hl)] at h
    split at h
    · exact exec_ne_refused _ _ _ h
    · cases h

/-- A refusal is the end of the run. -/
theorem runFor_refused {k : Nat} {s : State} {why : Refusal} (h : step s = .refused why) :
    runFor (k + 1) s = { responses := s.responses, final := s, ending := .refused why } := by
  simp only [runFor, h]

/-- Settles O8: the payload length check is the only source of a refusal, and a refusal ends the run. -/
theorem refusedExactlyWhenPayloadTooLong : Obligations.RefusedExactlyWhenPayloadTooLong := by
  refine fun s => ⟨fun why => ⟨fun h => ?_, ?_⟩, fun why k h => runFor_refused h⟩
  · obtain ⟨c, rest, hh, hl⟩ := overLong_of_step_refused h
    obtain ⟨bound, hbound, hlt⟩ := (overLong_iff _ _).mp hl
    exact ⟨c, rest, bound, hh, hbound, hlt, Host.Outcome.refused.inj (h.symm.trans (step_overLong hh hl))⟩
  · rintro ⟨c, rest, bound, hh, hbound, hlt, rfl⟩
    exact step_overLong hh ((overLong_iff _ _).mpr ⟨bound, hbound, hlt⟩)

/-! ## A run with a Refused command (R212) -/

/-- With a legal configuration or none, every instruction is answered. -/
theorem exists_exec_next (i : Instr) {s : State} (hs : ∀ c, s.cfg = some c → c.Legal s.params) :
    ∃ t, exec i s = .next t := by
  cases i with
  | new r => rcases execNew_cases r s with ⟨-, he⟩ | ⟨-, -, he⟩ <;> exact ⟨_, he⟩
  | enc x => rcases execEnc_cases x s with ⟨-, he⟩ | ⟨c, -, ⟨-, he⟩ | ⟨-, he⟩⟩ <;> exact ⟨_, he⟩
  | dec x =>
    rcases execDec_cases x s with ⟨-, he⟩ | ⟨c, hc, ⟨-, he⟩ | ⟨-, out, -, he⟩ | ⟨-, hnone, -⟩⟩
    · exact ⟨_, he⟩
    · exact ⟨_, he⟩
    · exact ⟨_, he⟩
    · obtain ⟨out, hout⟩ := exists_decodeSeq (hs c hc) x
      cases hnone.symm.trans hout

theorem exists_step_next {s : State} {c : Command} {rest : List HostEvent} (hs : s.Inv)
    (hh : s.host = .command c :: rest) (hl : s.params.overLong c.payload.length = false) : ∃ t, step s = .next t := by
  rw [step_command hh hl]
  split
  · exact exists_exec_next _ hs.cfg_legal
  · exact ⟨_, rfl⟩

/-- A run goes through the commands LMAX admits, to a state with only the later events ahead. -/
theorem exists_runFor_eq_of_admitted {before : List Command} {rest : List HostEvent} {s : State} (k : Nat) (hs : s.Inv)
    (hh : s.host = before.map .command ++ rest)
    (hl : ∀ c ∈ before, s.params.overLong c.payload.length = false) :
    ∃ t, runFor (before.length + k) s = runFor k t ∧ t.Inv ∧ t.host = rest ∧ t.params = s.params := by
  induction before generalizing s with
  | nil => exact ⟨s, by rw [List.length_nil, Nat.zero_add], hs, hh, rfl⟩
  | cons c before ih =>
    rw [List.forall_mem_cons] at hl
    obtain ⟨hc, hbefore⟩ := hl
    obtain ⟨t, ht⟩ := exists_step_next hs hh hc
    obtain ⟨hhost, hparams⟩ := stepLeavesStreamAndParameters s t ht
    obtain ⟨u, hrun, hu, huhost, huparams⟩ :=
      ih (everyStepKeepsInvariant s t hs ht) (by rw [hhost, hh]; rfl) (hparams ▸ hbefore)
    refine ⟨u, ?_, hu, huhost, huparams.trans hparams⟩
    rw [List.length_cons, Nat.succ_add, runFor_next ht, hrun]

theorem runCommands_completes {p : Params} {commands : List Command}
    (hl : ∀ c ∈ commands, p.overLong c.payload.length = false) : (runCommands p commands).ending = .completed := by
  obtain ⟨t, hrun, -⟩ := exists_runFor_eq_of_admitted (rest := []) 0 (resetMeetsInvariant p (commands.map .command))
    (by simp) hl
  rw [runCommands, ← Nat.add_zero commands.length, hrun, runFor_zero]

theorem runCommands_refused {p : Params} {before : List Command} {c : Command} (after : List Command)
    (hbefore : ∀ b ∈ before, p.overLong b.payload.length = false) (hc : p.overLong c.payload.length = true) :
    (runCommands p (before ++ c :: after)).ending = .refused (.payloadTooLong c.payload.length) := by
  obtain ⟨t, hrun, -, hhost, hparams⟩ := exists_runFor_eq_of_admitted (rest := .command c :: after.map .command)
    (after.length + 1) (resetMeetsInvariant p ((before ++ c :: after).map .command)) (by simp) hbefore
  rw [runCommands, List.length_append, List.length_cons, hrun, runFor_refused]
  exact step_overLong (.inl hhost) (hparams ▸ hc)

/-- Settles O54: the run reaches the first over-long command and is refused there; with LMAX unbounded there is none,
and the run completes. -/
theorem noClaimHoldsOfRefusedRun : Obligations.NoClaimHoldsOfRefusedRun := by
  refine fun p => ⟨fun before c after hbefore hc => ?_, fun hp commands why => ?_⟩
  · have hrefused := runCommands_refused after hbefore hc
    exact ⟨hrefused, Observation.not_holds_of_refused hrefused⟩
  · have hadmit : ∀ c ∈ commands, p.overLong c.payload.length = false := fun c _ => by rw [Params.overLong, hp]
    simp [runCommands_completes hadmit]

end Sys2Proof.Machine
end

section
/-!
PROOFS. Reset and hazards (70_reset_and_hazards.md): the reset, the completion of every command, runs from reset, and
the change of tables by NEW.
-/

namespace Sys2Proof.Machine

/-! ## Reset (R230, R231) -/

/-- Settles O2: both kinds of reset go on from the reset state of the same parameters. -/
theorem resetAbandonsCommand : Obligations.ResetAbandonsCommand := by
  refine fun s rest => ⟨fun hh => ?_, fun c hh hl => ?_⟩
  · rw [step, fetch_reset hh]
    rfl
  · rw [step, fetch_resetDuring hh, hl]
    rfl

/-! ## Every command that is not Refused completes (R237) -/

/-- A state that meets the invariant answers a command LMAX admits, as `Answers` says. -/
theorem exists_step_answers {s : State} {c : Command} {rest : List HostEvent} (hs : s.Inv)
    (hh : s.host = .command c :: rest) (hl : s.params.overLong c.payload.length = false) :
    ∃ rsp cfg, Answers s.params.rmax s.cfg (decode c) rsp cfg ∧
      step s = .next ((s.withHost rest).answered rsp cfg) := by
  obtain ⟨t, ht⟩ := exists_step_next hs hh hl
  rcases step_next_answers ht with ⟨hnil, -⟩ | ⟨e, rest', hh', he, -⟩ | ⟨c', rest', rsp, cfg, hh', ha, rfl⟩
  · cases hh.symm.trans hnil
  · cases hh.symm.trans hh'
    exact absurd rfl (he c)
  · cases hh.symm.trans hh'
    exact ⟨rsp, cfg, ha, ht⟩

/-- Settles O44: the answered state has taken the command, appended its one response and advanced the index. -/
theorem everyCommandCompletes : Obligations.EveryCommandCompletes := by
  intro s c rest hs hh hl
  obtain ⟨rsp, cfg, -, hstep⟩ := exists_step_answers hs hh hl
  exact ⟨_, rsp, hstep, rfl, rfl, rfl⟩

/-! ## Runs from reset (R238) -/

/-- `AnswersAll rmax cfg commands rsps cfg'`: starting with configuration `cfg`, the commands complete one after another
with the responses `rsps` and leave configuration `cfg'`. -/
inductive AnswersAll (rmax : Nat) :
    Option Configuration → List Command → List Response → Option Configuration → Prop where
  | nil {cfg} : AnswersAll rmax cfg [] [] cfg
  | cons {cfg cfg' cfg'' c rsp commands rsps} (ha : Answers rmax cfg (decode c) rsp cfg')
      (hrest : AnswersAll rmax cfg' commands rsps cfg'') : AnswersAll rmax cfg (c :: commands) (rsp :: rsps) cfg''

section AnswersAll

variable {rmax : Nat} {cfg cfg' : Option Configuration} {commands : List Command} {rsps : List Response}

theorem AnswersAll.length_eq (h : AnswersAll rmax cfg commands rsps cfg') : rsps.length = commands.length := by
  induction h with
  | nil => rfl
  | cons _ _ ih => rw [List.length_cons, List.length_cons, ih]

/-- Commands that keep the configuration are each answered with that configuration. -/
theorem AnswersAll.eq_map {f : Command → Response} (h : AnswersAll rmax cfg commands rsps cfg')
    (hf : ∀ c ∈ commands, ∀ rsp cfg', Answers rmax cfg (decode c) rsp cfg' → cfg' = cfg ∧ rsp = f c) :
    rsps = commands.map f := by
  induction h with
  | nil => rfl
  | cons ha _ ih =>
    rw [List.forall_mem_cons] at hf
    obtain ⟨hfirst, hcommands⟩ := hf
    obtain ⟨rfl, rfl⟩ := hfirst _ _ ha
    rw [List.map_cons, ← ih hcommands]

end AnswersAll

/-- A run over commands LMAX admits, from a state that meets the invariant, answers them all. -/
theorem exists_runFor_answersAll {commands : List Command} {s : State} (hs : s.Inv)
    (hh : s.host = commands.map .command) (hl : ∀ c ∈ commands, s.params.overLong c.payload.length = false) :
    ∃ rsps t, AnswersAll s.params.rmax s.cfg commands rsps t.cfg ∧ t.Inv ∧
      runFor commands.length s = { responses := s.responses ++ rsps, final := t, ending := .completed } := by
  induction commands generalizing s with
  | nil => exact ⟨[], s, .nil, hs, by simp⟩
  | cons c commands ih =>
    rw [List.forall_mem_cons] at hl
    obtain ⟨hc, hcommands⟩ := hl
    obtain ⟨rsp, cfg, ha, hstep⟩ := exists_step_answers hs hh hc
    obtain ⟨rsps, t, hall, ht, hrun⟩ := ih (hs.answered ha) rfl hcommands
    exact ⟨rsp :: rsps, t, .cons ha hall, ht, by simp [runFor_next hstep, hrun]⟩

theorem exists_runCommands_answersAll {p : Params} {commands : List Command}
    (hl : ∀ c ∈ commands, p.overLong c.payload.length = false) :
    ∃ rsps t, AnswersAll p.rmax none commands rsps t.cfg ∧ t.Inv ∧
      runCommands p commands = { responses := rsps, final := t, ending := .completed } :=
  exists_runFor_answersAll (resetMeetsInvariant p _) rfl hl

/-- If some payload is longer than LMAX, the run is refused at the first such command. -/
theorem runCommands_safe_iff (p : Params) (commands : List Command) :
    (runCommands p commands).Safe ↔ ∀ c ∈ commands, p.overLong c.payload.length = false := by
  refine ⟨fun hsafe => ?_, runCommands_completes⟩
  cases hfirst : commands.find? fun c => p.overLong c.payload.length with
  | none => simpa using hfirst
  | some c =>
    obtain ⟨hc, before, after, rfl, hbefore⟩ := List.find?_eq_some_iff_append.mp hfirst
    cases hsafe.symm.trans (runCommands_refused after (by simpa using hbefore) hc)

/-- Settles O45: the run is refused exactly at a first over-long command, and otherwise answers all of them. -/
theorem runFromResetAnswersEveryCommand : Obligations.RunFromResetAnswersEveryCommand := by
  refine fun p commands => ⟨runCommands_safe_iff p commands, fun hl => ?_⟩
  obtain ⟨rsps, t, hall, ht, hrun⟩ := exists_runCommands_answersAll hl
  rw [hrun]
  exact ⟨rfl, hall.length_eq, ht⟩

/-! ## Before a NEW succeeds (R232) -/

/-- Settles O47: no command of the run changes the configuration, so each is answered with none in force. -/
theorem nothingSucceedsBeforeNew : Obligations.NothingSucceedsBeforeNew := by
  intro p commands h
  obtain ⟨rsps, t, hall, -, hrun⟩ := exists_runCommands_answersAll fun c hc => (h c hc).2
  rw [hrun]
  refine ⟨rfl, hall.eq_map fun c hc rsp cfg ha => ?_⟩
  have hcfg : cfg = none := ha.cfg_eq_of_keeps (h c hc).1
  refine ⟨hcfg, ?_⟩
  generalize decode c = d at ha ⊢
  cases ha with
  | illegal | newFails | encNotConfigured | decNotConfigured => rfl
  | newInstalls => cases hcfg
  | encInvalidLength hnone | encodes hnone | decInvalidLength hnone | decodes hnone => cases hnone

/-! ## The new tables are used at once (R234, R51) -/

/-- Settles O50: the configuration in force after the NEW is the one `construct` builds, which decodes every payload of
whole blocks. -/
theorem reconfigurationHazard : Obligations.ReconfigurationHazard := by
  intro r s x h2 hle
  have hcfg : ((s.install (construct r)).emit (response .ok [])).cfg = some (construct r) := rfl
  refine ⟨_, execNew_installs h2 hle, fun hl => execDec_invalidLength hcfg hl, fun hl => ?_⟩
  obtain ⟨out, hout⟩ := exists_decodeSeq (legal_construct h2 hle) x
  exact ⟨out, hout, execDec_ok hcfg hl hout⟩

end Sys2Proof.Machine
end
